-- ==== Sys2Proof/Word.lean ====
section
/-! DEFINITION. The word types of the Lab3 core (R7, R17): 64-bit words, 8-bit bytes, 4-bit nibbles. -/

namespace Sys2Proof

/-- A 64-bit unsigned value: a register, the program counter, an address or an immediate (R7). -/
abbrev Word := BitVec 64

/-- One byte of memory or of an instruction (R17). -/
abbrev Byte := BitVec 8

/-- Four bits: `icode`, `ifun` or a register designator field (R17, R60, R63). -/
abbrev Nibble := BitVec 4

/-- A register number 0 to 15 (R8, R21). The number 0xF is an ordinary register (R24), so every
value of the type names a register and the "no register" sentinel is no value of it (R65). -/
abbrev Reg := Fin 16

end Sys2Proof
end

