-- ==== Sys2Proof/Machine/Bytes.lean ====
section
/-! DEFINITION. Bit fields and byte order: the two nibbles of a byte (R17, R60, R62) and the eight
little-endian bytes of a quadword (R45, R46, R48, R66). -/

namespace Sys2Proof

/-- `b[7:4]`, the high nibble (R17). -/
def hiNibble (b : Byte) : Nibble := b.extractLsb' 4 4

/-- `b[3:0]`, the low nibble (R17). -/
def loNibble (b : Byte) : Nibble := b.extractLsb' 0 4

/-- The byte whose high nibble is `h` and whose low nibble is `l` (R62). -/
def packByte (h l : Nibble) : Byte := h ++ l

/-- The register a designator nibble names: all sixteen values name one (R24, R64). -/
def nibbleReg (n : Nibble) : Reg := n.toFin

/-- The designator nibble of a register. -/
def regNibble (r : Reg) : Nibble := BitVec.ofFin r

/-- Eight bytes, the one at the lowest address first, read as a quadword: `b7 || … || b0` (R45). -/
def leQuad (b0 b1 b2 b3 b4 b5 b6 b7 : Byte) : Word :=
  b7 ++ b6 ++ b5 ++ b4 ++ b3 ++ b2 ++ b1 ++ b0

/-- `v[8i+7:8i]`, byte `i` of a quadword (R46). -/
def quadByte (v : Word) (i : Nat) : Byte := v.extractLsb' (8 * i) 8

/-- The bytes of a quadword in memory order, least significant first (R46, R48). -/
def quadBytes (v : Word) : List Byte :=
  [quadByte v 0, quadByte v 1, quadByte v 2, quadByte v 3,
   quadByte v 4, quadByte v 5, quadByte v 6, quadByte v 7]

/-- Split a leading quadword off a string of bytes (R66); `none` when fewer than eight are left. -/
def takeQuad : List Byte → Option (Word × List Byte)
  | b0 :: b1 :: b2 :: b3 :: b4 :: b5 :: b6 :: b7 :: rest =>
    some (leQuad b0 b1 b2 b3 b4 b5 b6 b7, rest)
  | _ => none

end Sys2Proof
end

