-- ==== Sys2Proof/Syntax.lean ====
section
/-! DEFINITION. The instructions: one constructor for every mnemonic of spec/opcode_table.json.
Fields are the fields of the encoding (R62): `fn` is an `ifun` the decoder does not check (R70, R71),
`rA` and `rB` are register numbers, `valC` the 8-byte value, and `ign` a register nibble the decoder
ignores (R64). The rows the table marks illegal are constructors too: running one raises ERR_INVALID. -/

namespace Sys2Proof

/-- An instruction of the opcode table, with every bit of its encoding. -/
inductive Instr where
  /-- icode 0x0 (R105). -/
  | halt (fn : Nibble)
  /-- icode 0x1 (R106). -/
  | nop (fn : Nibble)
  /-- icode 0x2, ifun 0 (R120); `valC` is carried and unused (R66). -/
  | rrmovq (rA rB : Reg) (valC : Word)
  /-- icode 0x2, ifun 1 (R121). -/
  | cmovle (rA rB : Reg) (valC : Word)
  /-- icode 0x2, ifun 2 (R122). -/
  | cmovl (rA rB : Reg) (valC : Word)
  /-- icode 0x2, ifun 3 (R123). -/
  | cmove (rA rB : Reg) (valC : Word)
  /-- icode 0x2, ifun 4 (R124). -/
  | cmovne (rA rB : Reg) (valC : Word)
  /-- icode 0x2, ifun 5 (R125). -/
  | cmovge (rA rB : Reg) (valC : Word)
  /-- icode 0x2, ifun 6 (R126). -/
  | cmovg (rA rB : Reg) (valC : Word)
  /-- icode 0x2, ifun 7 to 0xF: decodes, and no unit recognises it (R70). -/
  | registerMoveOther (fn : Nibble) (rA rB : Reg) (valC : Word)
  /-- icode 0x3 (R107); `ign` is the ignored `rA` nibble. -/
  | irmovq (fn ign : Nibble) (rB : Reg) (valC : Word)
  /-- icode 0x4 (R108). -/
  | rmmovq (fn : Nibble) (rA rB : Reg) (valC : Word)
  /-- icode 0x5 (R109). -/
  | mrmovq (fn : Nibble) (rA rB : Reg) (valC : Word)
  /-- icode 0x6, ifun 0 (R96). -/
  | addq (rA rB : Reg)
  /-- icode 0x6, ifun 1 (R97). -/
  | subq (rA rB : Reg)
  /-- icode 0x6, ifun 2 (R98). -/
  | andq (rA rB : Reg)
  /-- icode 0x6, ifun 3 (R99). -/
  | xorq (rA rB : Reg)
  /-- icode 0x6, ifun 4 (R100). -/
  | mulq (rA rB : Reg)
  /-- icode 0x6, ifun 5 (R101). -/
  | divq (rA rB : Reg)
  /-- icode 0x6, ifun 6 (R102). -/
  | modq (rA rB : Reg)
  /-- icode 0x6, ifun 7 to 0xF: illegal (R75). One byte, since decode reads no other (R72). -/
  | illegalOpq (fn : Nibble)
  /-- icode 0x7, ifun 0 (R127). -/
  | jmp (valC : Word)
  /-- icode 0x7, ifun 1 (R128). -/
  | jle (valC : Word)
  /-- icode 0x7, ifun 2 (R129). -/
  | jl (valC : Word)
  /-- icode 0x7, ifun 3 (R130). -/
  | je (valC : Word)
  /-- icode 0x7, ifun 4 (R131). -/
  | jne (valC : Word)
  /-- icode 0x7, ifun 5 (R132). -/
  | jge (valC : Word)
  /-- icode 0x7, ifun 6 (R133). -/
  | jg (valC : Word)
  /-- icode 0x7, ifun 7 to 0xF: illegal (R75). -/
  | illegalJxx (fn : Nibble)
  /-- icode 0x8 (R112). -/
  | call (fn : Nibble) (valC : Word)
  /-- icode 0x9 (R113). -/
  | ret (fn : Nibble)
  /-- icode 0xA (R114); `ign` is the ignored `rB` nibble. -/
  | pushq (fn : Nibble) (rA : Reg) (ign : Nibble)
  /-- icode 0xB (R115); `ign` is the ignored `rB` nibble. -/
  | popq (fn : Nibble) (rA : Reg) (ign : Nibble)
  /-- icode 0xC to 0xF: illegal (R74). -/
  | illegalFamily (icode fn : Nibble)
deriving DecidableEq, Repr

end Sys2Proof
end

