-- ==== Sys2Proof/WellFormed.lean ====
section
/-! DEFINITION. Which terms of Instr an encoding stands for: the ranges of `ifun` and `icode` that the
types do not already enforce (R70, R74, R75). -/

namespace Sys2Proof

/-- The checks on an instruction's fields. Every other field may take each value of its type
(R64: a used nibble can be 0x0 to 0xF; R71: any `ifun`). -/
def Instr.wellFormed : Instr → Bool
  | .registerMoveOther fn _ _ _ => decide (7 ≤ fn.toNat)
  | .illegalOpq fn => decide (7 ≤ fn.toNat)
  | .illegalJxx fn => decide (7 ≤ fn.toNat)
  | .illegalFamily icode _ => decide (0xC ≤ icode.toNat)
  | .halt _ | .nop _ | .rrmovq _ _ _ | .cmovle _ _ _ | .cmovl _ _ _ | .cmove _ _ _ | .cmovne _ _ _
  | .cmovge _ _ _ | .cmovg _ _ _ | .irmovq _ _ _ _ | .rmmovq _ _ _ _ | .mrmovq _ _ _ _
  | .addq _ _ | .subq _ _ | .andq _ _ | .xorq _ _ | .mulq _ _ | .divq _ _ | .modq _ _
  | .jmp _ | .jle _ | .jl _ | .je _ | .jne _ | .jge _ | .jg _
  | .call _ _ | .ret _ | .pushq _ _ _ | .popq _ _ _ => true

end Sys2Proof
end

