-- ==== Sys2Proof/Decode.lean ====
section
/-! DEFINITION. The decoder and the encoder (30_encoding.md). Every number of this file (icode, ifun, nibble
places) is the Y86-64 numbering the spec adopts from general knowledge (D1, 93_implementation_defined.md G2). -/

namespace Sys2Proof

/-- How the bytes after byte 0 are laid out (R62), with the instruction they complete. -/
inductive Layout where
  /-- Byte 0 alone decides: decode fails with ERR_INVALID before any length check (R72, R74, R75). -/
  | illegal (i : Instr)
  /-- F1: byte 0 alone. -/
  | f1 (i : Instr)
  /-- F2: byte 0 and a register byte, given to the function as its nibbles `rA`, `rB`. -/
  | f2 (mk : Nibble → Nibble → Instr)
  /-- F9: byte 0 and an 8-byte value. -/
  | f9 (mk : Word → Instr)
  /-- F10: byte 0, a register byte and an 8-byte value. -/
  | f10 (mk : Nibble → Nibble → Word → Instr)

/-- An F10 instruction that uses both register nibbles (R64). -/
def bothRegsImm (mk : Reg → Reg → Word → Instr) : Layout :=
  .f10 fun a b c => mk (nibbleReg a) (nibbleReg b) c

/-- An F2 instruction that uses both register nibbles (R64). -/
def bothRegs (mk : Reg → Reg → Instr) : Layout :=
  .f2 fun a b => mk (nibbleReg a) (nibbleReg b)

/-- The register-move family by `ifun` (R70). -/
def moveLayout (fn : Nibble) : Layout :=
  match fn.toNat with
  | 0 => bothRegsImm .rrmovq
  | 1 => bothRegsImm .cmovle
  | 2 => bothRegsImm .cmovl
  | 3 => bothRegsImm .cmove
  | 4 => bothRegsImm .cmovne
  | 5 => bothRegsImm .cmovge
  | 6 => bothRegsImm .cmovg
  | _ => bothRegsImm (.registerMoveOther fn)

/-- The arithmetic/logic family by `ifun` (R68). -/
def opqLayout (fn : Nibble) : Layout :=
  match fn.toNat with
  | 0 => bothRegs .addq
  | 1 => bothRegs .subq
  | 2 => bothRegs .andq
  | 3 => bothRegs .xorq
  | 4 => bothRegs .mulq
  | 5 => bothRegs .divq
  | 6 => bothRegs .modq
  | _ => .illegal (.illegalOpq fn)

/-- The conditional-jump family by `ifun` (R69). -/
def jumpLayout (fn : Nibble) : Layout :=
  match fn.toNat with
  | 0 => .f9 .jmp
  | 1 => .f9 .jle
  | 2 => .f9 .jl
  | 3 => .f9 .je
  | 4 => .f9 .jne
  | 5 => .f9 .jge
  | 6 => .f9 .jg
  | _ => .illegal (.illegalJxx fn)

/-- The opcode map: `icode` selects the family (R61), and the family's format and register fields
follow R62 and R64. `ifun` is unchecked outside families 0x6 and 0x7 (R71). -/
def layout (icode fn : Nibble) : Layout :=
  match icode.toNat with
  | 0x0 => .f1 (.halt fn)
  | 0x1 => .f1 (.nop fn)
  | 0x2 => moveLayout fn
  | 0x3 => .f10 fun a b c => .irmovq fn a (nibbleReg b) c
  | 0x4 => bothRegsImm (.rmmovq fn)
  | 0x5 => bothRegsImm (.mrmovq fn)
  | 0x6 => opqLayout fn
  | 0x7 => jumpLayout fn
  | 0x8 => .f9 (.call fn)
  | 0x9 => .f1 (.ret fn)
  | 0xA => .f2 fun a b => .pushq fn (nibbleReg a) b
  | 0xB => .f2 fun a b => .popq fn (nibbleReg a) b
  | _ => .illegal (.illegalFamily icode fn)

/-- What decoding a string of bytes gives. -/
inductive Decoding where
  /-- An instruction and the bytes after it; the illegal rows of the table are found here. -/
  | ok (i : Instr) (rest : List Byte)
  /-- There is no byte 0 to read (R73). -/
  | noByte
  /-- An instruction of `len` bytes that the string is too short for (R76). -/
  | truncated (len : Nat)
deriving DecidableEq, Repr

/-- Decode the bytes from the program counter on, in the order of checks of R72: no byte 0, then an
illegal byte 0, then too few bytes, then the fields. Total on every string of bytes. -/
def decode : List Byte → Decoding
  | [] => .noByte
  | b0 :: rest =>
    match layout (hiNibble b0) (loNibble b0) with
    | .illegal i => .ok i rest
    | .f1 i => .ok i rest
    | .f2 mk =>
      match rest with
      | b1 :: rest => .ok (mk (hiNibble b1) (loNibble b1)) rest
      | [] => .truncated 2
    | .f9 mk =>
      match takeQuad rest with
      | some (v, rest) => .ok (mk v) rest
      | none => .truncated 9
    | .f10 mk =>
      match rest with
      | b1 :: rest =>
        match takeQuad rest with
        | some (v, rest) => .ok (mk (hiNibble b1) (loNibble b1) v) rest
        | none => .truncated 10
      | [] => .truncated 10

/-- The opcode byte's two nibbles `(icode, ifun)` (R61, R68, R69, R70). -/
def Instr.opcode : Instr → Nibble × Nibble
  | .halt fn => (0x0, fn)
  | .nop fn => (0x1, fn)
  | .rrmovq _ _ _ => (0x2, 0)
  | .cmovle _ _ _ => (0x2, 1)
  | .cmovl _ _ _ => (0x2, 2)
  | .cmove _ _ _ => (0x2, 3)
  | .cmovne _ _ _ => (0x2, 4)
  | .cmovge _ _ _ => (0x2, 5)
  | .cmovg _ _ _ => (0x2, 6)
  | .registerMoveOther fn _ _ _ => (0x2, fn)
  | .irmovq fn _ _ _ => (0x3, fn)
  | .rmmovq fn _ _ _ => (0x4, fn)
  | .mrmovq fn _ _ _ => (0x5, fn)
  | .addq _ _ => (0x6, 0)
  | .subq _ _ => (0x6, 1)
  | .andq _ _ => (0x6, 2)
  | .xorq _ _ => (0x6, 3)
  | .mulq _ _ => (0x6, 4)
  | .divq _ _ => (0x6, 5)
  | .modq _ _ => (0x6, 6)
  | .illegalOpq fn => (0x6, fn)
  | .jmp _ => (0x7, 0)
  | .jle _ => (0x7, 1)
  | .jl _ => (0x7, 2)
  | .je _ => (0x7, 3)
  | .jne _ => (0x7, 4)
  | .jge _ => (0x7, 5)
  | .jg _ => (0x7, 6)
  | .illegalJxx fn => (0x7, fn)
  | .call fn _ => (0x8, fn)
  | .ret fn => (0x9, fn)
  | .pushq fn _ _ => (0xA, fn)
  | .popq fn _ _ => (0xB, fn)
  | .illegalFamily icode fn => (icode, fn)

/-- The register byte, if the format has one: `rA` in the high nibble, `rB` in the low one (R63, R64). -/
def Instr.regByte : Instr → Option Byte
  | .rrmovq a b _ | .cmovle a b _ | .cmovl a b _ | .cmove a b _ | .cmovne a b _ | .cmovge a b _
  | .cmovg a b _ | .registerMoveOther _ a b _ | .rmmovq _ a b _ | .mrmovq _ a b _
  | .addq a b | .subq a b | .andq a b | .xorq a b | .mulq a b | .divq a b | .modq a b =>
    some (packByte (regNibble a) (regNibble b))
  | .irmovq _ ign b _ => some (packByte ign (regNibble b))
  | .pushq _ a ign | .popq _ a ign => some (packByte (regNibble a) ign)
  | .halt _ | .nop _ | .illegalOpq _ | .jmp _ | .jle _ | .jl _ | .je _ | .jne _ | .jge _ | .jg _
  | .illegalJxx _ | .call _ _ | .ret _ | .illegalFamily _ _ => none

/-- The 8-byte value, if the format has one (R62, R66). -/
def Instr.imm : Instr → Option Word
  | .rrmovq _ _ c | .cmovle _ _ c | .cmovl _ _ c | .cmove _ _ c | .cmovne _ _ c | .cmovge _ _ c
  | .cmovg _ _ c | .registerMoveOther _ _ _ c | .irmovq _ _ _ c | .rmmovq _ _ _ c
  | .mrmovq _ _ _ c | .jmp c | .jle c | .jl c | .je c | .jne c | .jge c | .jg c | .call _ c => some c
  | .halt _ | .nop _ | .addq _ _ | .subq _ _ | .andq _ _ | .xorq _ _ | .mulq _ _ | .divq _ _
  | .modq _ _ | .illegalOpq _ | .illegalJxx _ | .ret _ | .pushq _ _ _ | .popq _ _ _
  | .illegalFamily _ _ => none

/-- The bytes of an instruction, first byte at the lowest address (R62): the opcode byte, the
register byte if there is one, and the value's bytes if there is one. -/
def encode (i : Instr) : List Byte :=
  packByte i.opcode.1 i.opcode.2 :: (i.regByte.toList ++ (i.imm.map quadBytes).getD [])

/-- The length in bytes (R61, R81); an illegal byte 0 is all that decode reads (R72). -/
def Instr.length (i : Instr) : Nat :=
  1 + (if i.regByte.isSome then 1 else 0) + (if i.imm.isSome then 8 else 0)

/-- The longest instruction's length, format F10 (R62). -/
def maxInstrLength : Nat := 10

/-- `n` bytes of a number, byte 0 its least significant bits. -/
def natBytes : Nat → Nat → List Byte
  | 0, _ => []
  | n + 1, w => BitVec.ofNat 8 w :: natBytes n (w / 256)

/-- An instruction given as a number whose bit 0 is the least significant bit of its first byte:
its bytes in memory order, zeros above bit `nbits`, up to the longest instruction. -/
def tableWordBytes (nbits w : Nat) : List Byte := natBytes maxInstrLength (w % 2 ^ nbits)

/-- The instruction the decoder reads from such a number. -/
def decodeTableWord (nbits w : Nat) : Option Instr :=
  match decode (tableWordBytes nbits w) with
  | .ok i _ => some i
  | .noByte | .truncated _ => none

end Sys2Proof
end

