-- ==== Sys2Proof/Config.lean ====
section
/-! DEFINITION. The parameters the spec leaves OPEN (00_scope.md R9 to R15, 93_implementation_defined.md
section 2). A machine has one value of each for its whole life; State carries them as one read-only field
(log entry 1), so a statement about every state holds for every value the spec allows. -/

namespace Sys2Proof

/-- `STACK_FAIL_MODE` (R12): what a call or a push leaves behind when its store fails. -/
inductive StackFailMode where
  | reference
  | rollback
deriving DecidableEq, Repr

/-- `PUSH_SP_VALUE` (R13): the value `pushq %rsp` stores. -/
inductive PushSpValue where
  | old
  | decremented
deriving DecidableEq, Repr

/-- `POP_SP_RESULT` (R14): the value `popq %rsp` leaves in the stack pointer. -/
inductive PopSpResult where
  | loaded
  | loadedPlus8
  | oldPlus8
deriving DecidableEq, Repr

/-- `MOVE_JUMP_EXEC` (R15): what the execute stage does with a register-move or a conditional-jump.
`fault` is the decided value; `y86` rests on general knowledge (93_implementation_defined.md G5). -/
inductive MoveJumpExec where
  | fault
  | y86
deriving DecidableEq, Repr

/-- The open parameters of one machine. -/
structure Params where
  /-- `MEM_SIZE` in bytes (R9); `Params.wf` is its bound. -/
  memSize : Nat
  /-- `ENTRY`, the address a launch puts in the program counter (R10, R30). -/
  entry : BitVec 64
  stackFailMode : StackFailMode
  pushSpValue : PushSpValue
  popSpResult : PopSpResult
  moveJumpExec : MoveJumpExec
deriving DecidableEq, Repr

/-- The bound R9 sets: `0 <= MEM_SIZE <= 2^64`. -/
abbrev Params.wf (p : Params) : Prop := p.memSize ≤ 2 ^ 64

end Sys2Proof
end

