-- ==== Sys2Proof/Machine/Launch.lean ====
section
/-! DEFINITION. The values the model names for what the spec leaves to the caller of a launch (R16, D7), so that
State.reset is a plain state. No statement rests on one of them: each ranges over every value. -/

namespace Sys2Proof.Machine

/-- The parameters of the machine State.reset describes. `MOVE_JUMP_EXEC = fault` is the spec's decided
value (R15); the others are DESIGN CHOICE, log entry 2: the spec leaves them OPEN. -/
def launchParams : Params where
  memSize := 2 ^ 64
  entry := 0
  stackFailMode := .reference
  pushSpValue := .old
  popSpResult := .loaded
  moveJumpExec := .fault

/-- The launch value of every general register (R26). DESIGN CHOICE, log entry 4: the spec gives none. -/
def launchReg : Word := 0

/-- The launch value of `ZF` (R33). DESIGN CHOICE, log entry 4. -/
def launchZf : Bool := false

/-- The launch value of `SF` (R33). DESIGN CHOICE, log entry 4. -/
def launchSf : Bool := false

end Sys2Proof.Machine
end

