-- ==== Sys2Proof/Machine/Memory.lean ====
section
/-! DEFINITION. Memory as a list of (address, byte) pairs in one canonical form. -/

namespace Sys2Proof.Machine

/-- The byte array `M` (R34): the cells whose byte is not the one an unlisted address reads as. -/
abbrev Memory := List Host.Cell

/-- What an address with no cell reads as. The spec leaves the launch image OPEN (R150); with this
filler each image still has exactly one canonical list. DESIGN CHOICE, log entry 3. -/
def Memory.filler : Byte := 0

/-- The canonical form: addresses strictly rising, and no cell holding the filler. -/
abbrev Memory.wf (m : Memory) : Prop :=
  m.Pairwise (fun c d => c.1 < d.1) ∧ ∀ c ∈ m, c.2 ≠ Memory.filler

/-- The byte at an address; no bounds check here (R44). -/
def Memory.read : Memory → Nat → Byte
  | [], _ => Memory.filler
  | c :: rest, a => if c.1 = a then c.2 else Memory.read rest a

/-- The memory without any cell at an address. -/
def Memory.erase (m : Memory) (a : Nat) : Memory := m.filter fun c => c.1 != a

/-- The memory with a cell added before the first one at a higher address. -/
def Memory.insert : Memory → Nat → Byte → Memory
  | [], a, b => [(a, b)]
  | c :: rest, a, b => if a < c.1 then (a, b) :: c :: rest else c :: Memory.insert rest a b

/-- Set the byte at an address, keeping the canonical form. -/
def Memory.write (m : Memory) (a : Nat) (b : Byte) : Memory :=
  if b = Memory.filler then m.erase a else (m.erase a).insert a b

/-- Set consecutive bytes from an address up. -/
def Memory.writeBytes : Memory → Nat → List Byte → Memory
  | m, _, [] => m
  | m, a, b :: bs => Memory.writeBytes (Memory.write m a b) (a + 1) bs

/-- `n` consecutive bytes from an address up. -/
def Memory.readBytes (m : Memory) : Nat → Nat → List Byte
  | _, 0 => []
  | a, n + 1 => Memory.read m a :: Memory.readBytes m (a + 1) n

end Sys2Proof.Machine
end

