-- ==== Sys2Proof/Machine/State.lean ====
section
/-! DEFINITION. The machine's state (10_state.md), the status latch (60_exceptions.md R134), the reasons a step
stops, and the state after reset (70_reset_and_hazards.md R149). -/

namespace Sys2Proof.Machine

/-- The value of the status latch `STAT` with the information R134 says each outcome records. -/
inductive Stat where
  | aok
  | hlt
  | errFetchOob (pc : Word)
  | errTruncated (pc : Word) (len : Nat)
  | errInvalid (pc : Word) (b0 : Byte)
  | errMemOob (ea : Word) (width : Nat)
  | errUnrecognized (pc : Word)
  | errDivZero (pc : Word)
deriving DecidableEq, Repr

/-- Everything the spec gives the machine (R20): `S = (R[0..15], ZF, SF, pc, M, STAT)`. The last field is
not state of the spec but its configuration: the open parameters of this machine, which no step writes. -/
structure State where
  /-- `R[0]` to `R[15]` (R21). -/
  regs : Vector Word 16
  /-- The zero flag (R31). -/
  zf : Bool
  /-- The sign flag (R31). -/
  sf : Bool
  /-- The program counter (R27). -/
  pc : Word
  /-- The memory `M` (R34). -/
  mem : Memory
  /-- The status latch `STAT` (R35). -/
  stat : Stat
  /-- The parameters of this machine (R9 to R15); log entry 1. -/
  params : Params
deriving DecidableEq, Repr

/-- Why a step stops for good. -/
inductive Fault where
  /-- Raised by `step` alone, in a state whose latch is not `AOK`: no step exists there (R87). Safe: the
  hardware takes no step either. -/
  | stopped (stat : Stat)
deriving DecidableEq, Repr

/-- Why the model declines a step. -/
inductive Refusal where
  /-- Raised by an arm of `exec` that has no meaning yet. Safe: nothing follows from it. No arm uses it. -/
  | notModelled (mnemonic : String)
deriving DecidableEq, Repr

/-- What a step answers. -/
abbrev Result := Host.Outcome State Fault Refusal

/-- The state a launch leaves (R149, R151): `pc` at `ENTRY`, `STAT = AOK`, no byte of an image, and for the
rest the values Machine/Launch.lean names. -/
def State.reset : State where
  regs := Vector.replicate 16 launchReg
  zf := launchZf
  sf := launchSf
  pc := launchParams.entry
  mem := []
  stat := .aok
  params := launchParams

end Sys2Proof.Machine
end

