-- ==== Sys2Proof/Machine/Ops.lean ====
section
/-! DEFINITION. The named operations over registers, flags, the program counter, memory and the status latch that
every meaning is written with. -/

namespace Sys2Proof.Machine

/-- `SP_INDEX = 4`: `%rsp` is the stack pointer (R11, R23), from general knowledge (D2, G3). -/
def spIndex : Reg := 4

/-- `R[i]` (R21): all sixteen are ordinary registers, 0xF among them (R24). -/
def State.reg (s : State) (r : Reg) : Word := s.regs[r.val]

/-- `R[i] <- v` (R21): all 64 bits of one register. -/
def State.setReg (s : State) (r : Reg) (v : Word) : State := { s with regs := s.regs.set r.val v }

/-- `pc <- target` (R27). -/
def State.setPc (s : State) (target : Word) : State := { s with pc := target }

/-- Write both condition flags (R32). -/
def State.setFlags (s : State) (zf sf : Bool) : State := { s with zf := zf, sf := sf }

/-- Write the memory array (R34). -/
def State.setMem (s : State) (m : Memory) : State := { s with mem := m }

/-- Write the status latch (R35). -/
def State.setStat (s : State) (e : Stat) : State := { s with stat := e }

/-- The address after an instruction of `len` bytes at `pc`: `valP = (pc + len) mod 2^64` (R77). -/
def State.valP (s : State) (len : Nat) : Word := s.pc + BitVec.ofNat 64 len

/-- `pc <- valP`, the default next pc (R91). -/
def State.advance (s : State) (len : Nat) : State := s.setPc (s.valP len)

/-- `raise E(info)` (R135), and the step's end in halt (R86): the latch takes the outcome, and what the
state already holds stays. This is all that taking an exception is here: no vector, no saved register, no
handler (R138), and so no return from one (R140). -/
def State.raise (s : State) (e : Stat) : Result := .next (s.setStat e)

/-- The bounds check (R43): `a + width <= MEM_SIZE` in exact integers, with no wrap-around. -/
def State.inBounds (s : State) (a : Word) (width : Nat) : Bool :=
  decide (a.toNat + width ≤ s.params.memSize)

/-- `readByte(a)` (R44); `none` is Fail. -/
def State.readByte (s : State) (a : Word) : Option Byte :=
  if s.inBounds a 1 then some (s.mem.read a.toNat) else none

/-- Eight bytes of memory from an address up, as a little-endian quadword (R45). -/
def Memory.quad (m : Memory) (a : Nat) : Word :=
  leQuad (m.read a) (m.read (a + 1)) (m.read (a + 2)) (m.read (a + 3))
    (m.read (a + 4)) (m.read (a + 5)) (m.read (a + 6)) (m.read (a + 7))

/-- `readQuad(a)` (R45); `none` is Fail. -/
def State.readQuad (s : State) (a : Word) : Option Word :=
  if s.inBounds a 8 then some (s.mem.quad a.toNat) else none

/-- `writeQuad(a, v)` (R46): the eight bytes of `v` or, on a failed check, nothing at all. `none` is Fail. -/
def State.writeQuad (s : State) (a v : Word) : Option State :=
  if s.inBounds a 8 then some (s.setMem (s.mem.writeBytes a.toNat (quadBytes v))) else none

/-- A launch (R149): the caller's parameters, image, register and flag values, `pc = ENTRY`, `STAT = AOK`.
The image is given as its bytes from address 0 up; what lies past `MEM_SIZE` is not loaded (R150). -/
def State.launch (p : Params) (image : List Byte) (regs : Vector Word 16) (zf sf : Bool) : State where
  regs := regs
  zf := zf
  sf := sf
  pc := p.entry
  mem := Memory.writeBytes [] 0 (image.take p.memSize)
  stat := .aok
  params := p

end Sys2Proof.Machine
end

