-- ==== Sys2Proof/Machine/Flags.lean ====
section
/-! DEFINITION. The ALU's results and flags (41_arithmetic.md) and the conditions read from the flags (R119). -/

namespace Sys2Proof.Machine

/-- The seven operations of the arithmetic/logic family, in the order of their codes 0 to 6 (R68). -/
inductive AluFun where
  | add
  | sub
  | and
  | xor
  | mul
  | div
  | mod
deriving DecidableEq, Repr

/-- `alu_div0` (R40): a divide or modulo whose divisor, operand A, is zero. -/
def aluDivZero : AluFun → Word → Bool
  | .div, a | .mod, a => decide (a = 0)
  | .add, _ | .sub, _ | .and, _ | .xor, _ | .mul, _ => false

/-- `alu_r`, the result `B op A` (R92) modulo 2^64 (R93); divide and modulo are unsigned (R103). -/
def aluResult : AluFun → Word → Word → Word
  | .add, a, b => b + a
  | .sub, a, b => b - a
  | .and, a, b => b &&& a
  | .xor, a, b => b ^^^ a
  | .mul, a, b => b * a
  | .div, a, b => b / a
  | .mod, a, b => b % a

/-- `alu_zf`: the result is zero (R94). -/
def zeroFlag (r : Word) : Bool := decide (r = 0)

/-- `alu_sf`: bit 63 of the result, for all seven operations alike (R94, 90_conflicts.md C1). -/
def signFlag (r : Word) : Bool := r.msb

/-- The conditions of the register-move and conditional-jump families, in the order of their codes 0 to 6
(R69, R70). -/
inductive Cond where
  | always
  | le
  | l
  | e
  | ne
  | ge
  | g
deriving DecidableEq, Repr

/-- `Cond(ifun, ZF, SF)` (R119): Y86-64's conditions with `OF = 0`, from general knowledge (G5). -/
def condHolds : Cond → Bool → Bool → Bool
  | .always, _, _ => true
  | .le, zf, sf => sf || zf
  | .l, _, sf => sf
  | .e, zf, _ => zf
  | .ne, zf, _ => !zf
  | .ge, _, sf => !sf
  | .g, zf, sf => !sf && !zf

end Sys2Proof.Machine
end

