-- ==== Sys2Proof/Machine/Arithmetic.lean ====
section
/-! DEFINITION. The Arithmetic Unit (41_arithmetic.md): addq, subq, andq, xorq, mulq, divq, modq, and the illegal
codes of the family. -/

namespace Sys2Proof.Machine

/-- `execute_ALU` (R92): read both operands, raise ERR_DIV_ZERO with nothing changed on a zero divisor (R95),
else write `R[rB]` and both flags and advance by the family's length 2. -/
def aluStep (f : AluFun) (rA rB : Reg) (s : State) : Result :=
  if aluDivZero f (s.reg rA) then s.raise (.errDivZero s.pc)
  else
    let r := aluResult f (s.reg rA) (s.reg rB)
    .next (((s.setReg rB r).setFlags (zeroFlag r) (signFlag r)).advance 2)

/-- R96. -/
def execAddq (rA rB : Reg) (s : State) : Result := aluStep .add rA rB s

/-- R97. -/
def execSubq (rA rB : Reg) (s : State) : Result := aluStep .sub rA rB s

/-- R98. -/
def execAndq (rA rB : Reg) (s : State) : Result := aluStep .and rA rB s

/-- R99. -/
def execXorq (rA rB : Reg) (s : State) : Result := aluStep .xor rA rB s

/-- R100. -/
def execMulq (rA rB : Reg) (s : State) : Result := aluStep .mul rA rB s

/-- R101. -/
def execDivq (rA rB : Reg) (s : State) : Result := aluStep .div rA rB s

/-- R102. -/
def execModq (rA rB : Reg) (s : State) : Result := aluStep .mod rA rB s

/-- R75: ERR_INVALID, recording `pc` and byte 0, with nothing else changed. -/
def execIllegalOpq (fn : Nibble) (s : State) : Result := s.raise (.errInvalid s.pc (packByte 0x6 fn))

end Sys2Proof.Machine
end

