-- ==== Sys2Proof/Machine/MoveJump.lean ====
section
/-! DEFINITION. The register-move and conditional-jump families (44_move_jump.md), whose execution `MOVE_JUMP_EXEC`
selects (R15, R118). Everything under `y86` rests on general knowledge (G5). -/

namespace Sys2Proof.Machine

/-- Section 2 of 44_move_jump.md: under `y86` move when the condition holds, and advance by 10; under `fault`
ERR_UNRECOGNIZED with nothing else changed. -/
def moveStep (c : Cond) (rA rB : Reg) (s : State) : Result :=
  match s.params.moveJumpExec with
  | .fault => s.raise (.errUnrecognized s.pc)
  | .y86 =>
    if condHolds c s.zf s.sf then .next ((s.setReg rB (s.reg rA)).advance 10)
    else .next (s.advance 10)

/-- Section 3 of 44_move_jump.md: under `y86` go to `valC` when the condition holds, else to `valP`; under
`fault` ERR_UNRECOGNIZED with nothing else changed. -/
def jumpStep (c : Cond) (valC : Word) (s : State) : Result :=
  match s.params.moveJumpExec with
  | .fault => s.raise (.errUnrecognized s.pc)
  | .y86 => .next (if condHolds c s.zf s.sf then s.setPc valC else s.advance 9)

/-- R120. -/
def execRrmovq (rA rB : Reg) (_valC : Word) (s : State) : Result := moveStep .always rA rB s

/-- R121. -/
def execCmovle (rA rB : Reg) (_valC : Word) (s : State) : Result := moveStep .le rA rB s

/-- R122. -/
def execCmovl (rA rB : Reg) (_valC : Word) (s : State) : Result := moveStep .l rA rB s

/-- R123. -/
def execCmove (rA rB : Reg) (_valC : Word) (s : State) : Result := moveStep .e rA rB s

/-- R124. -/
def execCmovne (rA rB : Reg) (_valC : Word) (s : State) : Result := moveStep .ne rA rB s

/-- R125. -/
def execCmovge (rA rB : Reg) (_valC : Word) (s : State) : Result := moveStep .ge rA rB s

/-- R126. -/
def execCmovg (rA rB : Reg) (_valC : Word) (s : State) : Result := moveStep .g rA rB s

/-- R70: a register-move with `ifun` 7 to 0xF raises ERR_UNRECOGNIZED under both values of `MOVE_JUMP_EXEC`. -/
def execRegisterMoveOther (_fn : Nibble) (_rA _rB : Reg) (_valC : Word) (s : State) : Result :=
  s.raise (.errUnrecognized s.pc)

/-- R127. -/
def execJmp (valC : Word) (s : State) : Result := jumpStep .always valC s

/-- R128. -/
def execJle (valC : Word) (s : State) : Result := jumpStep .le valC s

/-- R129. -/
def execJl (valC : Word) (s : State) : Result := jumpStep .l valC s

/-- R130. -/
def execJe (valC : Word) (s : State) : Result := jumpStep .e valC s

/-- R131. -/
def execJne (valC : Word) (s : State) : Result := jumpStep .ne valC s

/-- R132. -/
def execJge (valC : Word) (s : State) : Result := jumpStep .ge valC s

/-- R133. -/
def execJg (valC : Word) (s : State) : Result := jumpStep .g valC s

/-- R75: ERR_INVALID, recording `pc` and byte 0, in both modes, with nothing else changed. -/
def execIllegalJxx (fn : Nibble) (s : State) : Result := s.raise (.errInvalid s.pc (packByte 0x7 fn))

end Sys2Proof.Machine
end

