-- ==== Sys2Proof/Machine/Operands.lean ====
section
/-! DEFINITION. The operand forms: the effective address of a load or a store, the stack slots, and the values the
open parameters choose for a push or a pop of the stack pointer itself. -/

namespace Sys2Proof.Machine

/-- `ea = (R[rB] + valC) mod 2^64` (R104): base plus displacement, one 64-bit sum for both readings of the
displacement's sign. The base register is not written. -/
def State.effAddr (s : State) (rB : Reg) (valC : Word) : Word := s.reg rB + valC

/-- The slot a call or a push stores to: the stack pointer after its decrement by 8, modulo 2^64 (R111). -/
def State.pushSlot (s : State) : Word := s.reg spIndex - 8

/-- The slot a ret or a pop reads: the stack pointer before its increment (R111). -/
def State.popSlot (s : State) : Word := s.reg spIndex

/-- The value `pushq rA` stores (R114): the register's, but for `%rsp` the one `PUSH_SP_VALUE` selects (R13). -/
def State.pushValue (s : State) (rA : Reg) : Word :=
  if rA = spIndex then
    match s.params.pushSpValue with
    | .old => s.reg spIndex
    | .decremented => s.pushSlot
  else s.reg rA

/-- What `popq rA` writes to the registers when it read `v` (R115): the destination and the incremented stack
pointer, or for `popq %rsp` the one value `POP_SP_RESULT` selects (R14). -/
def State.popInto (s : State) (rA : Reg) (v : Word) : State :=
  if rA = spIndex then
    match s.params.popSpResult with
    | .loaded => s.setReg spIndex v
    | .loadedPlus8 => s.setReg spIndex (v + 8)
    | .oldPlus8 => s.setReg spIndex (s.popSlot + 8)
  else (s.setReg rA v).setReg spIndex (s.popSlot + 8)

end Sys2Proof.Machine
end

