-- ==== Sys2Proof/Machine/Simple.lean ====
section
/-! DEFINITION. The Simple-Operation Unit (42_simple_ops.md): halt, nop, irmovq, rmmovq, mrmovq, and the opcode
families that name nothing. The `ifun` of each is ignored (R71). -/

namespace Sys2Proof.Machine

/-- R105: halt acts at fetch, so the step ends with `STAT = HLT` and the pc still at the halt byte (R86). The
branch of a unit that halt is handed to is `Machine/Units.lean`'s (log entry 6). -/
def execHalt (_fn : Nibble) (s : State) : Result := s.raise .hlt

/-- R106. -/
def execNop (_fn : Nibble) (s : State) : Result := .next (s.advance 1)

/-- R107: all 64 bits of `valC`; the `rA` nibble is ignored (R64). -/
def execIrmovq (_fn _ign : Nibble) (rB : Reg) (valC : Word) (s : State) : Result :=
  .next ((s.setReg rB valC).advance 10)

/-- R108. -/
def execRmmovq (_fn : Nibble) (rA rB : Reg) (valC : Word) (s : State) : Result :=
  match s.writeQuad (s.effAddr rB valC) (s.reg rA) with
  | some t => .next (t.advance 10)
  | none => s.raise (.errMemOob (s.effAddr rB valC) 8)

/-- R109. -/
def execMrmovq (_fn : Nibble) (rA rB : Reg) (valC : Word) (s : State) : Result :=
  match s.readQuad (s.effAddr rB valC) with
  | some v => .next ((s.setReg rA v).advance 10)
  | none => s.raise (.errMemOob (s.effAddr rB valC) 8)

/-- R74: ERR_INVALID, recording `pc` and byte 0, with nothing else changed. -/
def execIllegalFamily (icode fn : Nibble) (s : State) : Result :=
  s.raise (.errInvalid s.pc (packByte icode fn))

end Sys2Proof.Machine
end

