-- ==== Sys2Proof/Machine/Stack.lean ====
section
/-! DEFINITION. The Stack Unit (43_stack.md): call, ret, pushq, popq. The `ifun` of each is ignored (R71). -/

namespace Sys2Proof.Machine

/-- The store below the stack pointer that call and push share. `start` is the state at the start of the step and
`cur` the state with what the instruction wrote so far; the decremented stack pointer is written first, then
the store is tried, and when it fails `STACK_FAIL_MODE` says which of the two states is kept (R12). -/
def pushQuad (start cur : State) (v nextPc : Word) : Result :=
  let dec := cur.setReg spIndex start.pushSlot
  match dec.writeQuad start.pushSlot v with
  | some t => .next (t.setPc nextPc)
  | none =>
    match start.params.stackFailMode with
    | .reference => dec.raise (.errMemOob start.pushSlot 8)
    | .rollback => start.raise (.errMemOob start.pushSlot 8)

/-- R112: `pc <- valP` comes before the decrement and the store of the return address `valP`. -/
def execCall (_fn : Nibble) (valC : Word) (s : State) : Result :=
  pushQuad s (s.advance 9) (s.valP 9) valC

/-- R113. -/
def execRet (_fn : Nibble) (s : State) : Result :=
  match s.readQuad s.popSlot with
  | some v => .next ((s.setReg spIndex (s.popSlot + 8)).setPc v)
  | none => s.raise (.errMemOob s.popSlot 8)

/-- R114: the pc is not advanced before the store. -/
def execPushq (_fn : Nibble) (rA : Reg) (_ign : Nibble) (s : State) : Result :=
  pushQuad s s (s.pushValue rA) (s.valP 2)

/-- R115. -/
def execPopq (_fn : Nibble) (rA : Reg) (_ign : Nibble) (s : State) : Result :=
  match s.readQuad s.popSlot with
  | some v => .next ((s.popInto rA v).advance 2)
  | none => s.raise (.errMemOob s.popSlot 8)

end Sys2Proof.Machine
end

