-- ==== Sys2Proof/Machine/Dispatch.lean ====
section
/-! DEFINITION. One arm per instruction (R89). -/

namespace Sys2Proof.Machine

/-- What the step does once the instruction at the pc is decoded, in a state whose latch is `AOK` (R86). -/
def exec (i : Instr) (s : State) : Host.Outcome State Fault Refusal :=
  match i with
  | .halt fn => Sys2Proof.Machine.execHalt fn s
  | .nop fn => Sys2Proof.Machine.execNop fn s
  | .rrmovq rA rB valC => Sys2Proof.Machine.execRrmovq rA rB valC s
  | .cmovle rA rB valC => Sys2Proof.Machine.execCmovle rA rB valC s
  | .cmovl rA rB valC => Sys2Proof.Machine.execCmovl rA rB valC s
  | .cmove rA rB valC => Sys2Proof.Machine.execCmove rA rB valC s
  | .cmovne rA rB valC => Sys2Proof.Machine.execCmovne rA rB valC s
  | .cmovge rA rB valC => Sys2Proof.Machine.execCmovge rA rB valC s
  | .cmovg rA rB valC => Sys2Proof.Machine.execCmovg rA rB valC s
  | .registerMoveOther fn rA rB valC => Sys2Proof.Machine.execRegisterMoveOther fn rA rB valC s
  | .irmovq fn ign rB valC => Sys2Proof.Machine.execIrmovq fn ign rB valC s
  | .rmmovq fn rA rB valC => Sys2Proof.Machine.execRmmovq fn rA rB valC s
  | .mrmovq fn rA rB valC => Sys2Proof.Machine.execMrmovq fn rA rB valC s
  | .addq rA rB => Sys2Proof.Machine.execAddq rA rB s
  | .subq rA rB => Sys2Proof.Machine.execSubq rA rB s
  | .andq rA rB => Sys2Proof.Machine.execAndq rA rB s
  | .xorq rA rB => Sys2Proof.Machine.execXorq rA rB s
  | .mulq rA rB => Sys2Proof.Machine.execMulq rA rB s
  | .divq rA rB => Sys2Proof.Machine.execDivq rA rB s
  | .modq rA rB => Sys2Proof.Machine.execModq rA rB s
  | .illegalOpq fn => Sys2Proof.Machine.execIllegalOpq fn s
  | .jmp valC => Sys2Proof.Machine.execJmp valC s
  | .jle valC => Sys2Proof.Machine.execJle valC s
  | .jl valC => Sys2Proof.Machine.execJl valC s
  | .je valC => Sys2Proof.Machine.execJe valC s
  | .jne valC => Sys2Proof.Machine.execJne valC s
  | .jge valC => Sys2Proof.Machine.execJge valC s
  | .jg valC => Sys2Proof.Machine.execJg valC s
  | .illegalJxx fn => Sys2Proof.Machine.execIllegalJxx fn s
  | .call fn valC => Sys2Proof.Machine.execCall fn valC s
  | .ret fn => Sys2Proof.Machine.execRet fn s
  | .pushq fn rA ign => Sys2Proof.Machine.execPushq fn rA ign s
  | .popq fn rA ign => Sys2Proof.Machine.execPopq fn rA ign s
  | .illegalFamily icode fn => Sys2Proof.Machine.execIllegalFamily icode fn s

end Sys2Proof.Machine
end

