-- ==== Sys2Proof/Machine/Fetch.lean ====
section
/-! DEFINITION. Fetching: the bytes at the pc that lie in memory, and what the decoder makes of them. -/

namespace Sys2Proof.Machine

/-- The bytes from the pc up that the decoder may read: at most ten (R38), and none outside
`[0, MEM_SIZE)` (R42). Reading has no effect (R44), so reading bytes no field needs changes nothing. -/
def State.fetchBytes (s : State) : List Byte :=
  s.mem.readBytes s.pc.toNat (min maxInstrLength (s.params.memSize - s.pc.toNat))

/-- The bytes of `bs` stored at `a` and up, those outside `[0, MEM_SIZE)` left out. -/
def State.placeBytes (s : State) (a : Nat) (bs : List Byte) : State :=
  s.setMem (s.mem.writeBytes a (bs.take (s.params.memSize - a)))

end Sys2Proof.Machine
end

