-- ==== Sys2Proof/Machine/Step.lean ====
section
/-! DEFINITION. One step (R86, R87). -/

namespace Sys2Proof.Machine

/-- A step from `AOK` fetches, decodes and runs one instruction; a decode-time error writes the latch and nothing
else (R73, R76). No step exists from any other latch value (R87). -/
def step (s : State) : Host.Outcome State Fault Refusal :=
  if s.stat = .aok then
    match decode s.fetchBytes with
    | .ok i _ => exec i s
    | .noByte => s.raise (.errFetchOob s.pc)
    | .truncated len => s.raise (.errTruncated s.pc len)
  else .fault (.stopped s.stat)

/-- The state with one instruction, numbered as spec/opcode_table.json numbers its bits, stored at the pc and the
latch at `AOK`, as a launch with that image leaves them (R149); log entry 5. -/
def State.withFetchWord (s : State) (nbits w : Nat) : State :=
  (s.placeBytes s.pc.toNat (tableWordBytes nbits w)).setStat .aok

end Sys2Proof.Machine
end

