-- ==== Sys2Proof/Machine/Units.lean ====
section
/-! DEFINITION. The block view of a step (10_state.md section 8): the decoded instruction `D` (R79), the fetch/decode
unit written as the spec's own pseudocode (R72), and the dispatch of `D` to the execution units (R86, R89, R90).
Machine/Step.lean is the machine; that this view gives the same step is a statement. -/

namespace Sys2Proof.Machine

/-- The decoded instruction (R79). `none` in a designator is the `NONE` sentinel (R65). -/
structure Decoded where
  icode : Nibble
  ifun : Nibble
  rA : Option Reg
  rB : Option Reg
  valC : Word
  start : Word
  valP : Word
deriving DecidableEq, Repr

/-- What the fetch/decode unit answers: `(D, continue)`, or `Fail(E)` (R72). -/
inductive FduOut where
  | decoded (d : Decoded) (continues : Bool)
  | fail (e : Stat)
deriving DecidableEq, Repr

/-- `LENGTH[icode]` for the twelve families (R81); a family that names nothing has none. -/
def lengthOf (icode : Nibble) : Option Nat :=
  match icode.toNat with
  | 0x0 | 0x1 | 0x9 => some 1
  | 0x6 | 0xA | 0xB => some 2
  | 0x7 | 0x8 => some 9
  | 0x2 | 0x3 | 0x4 | 0x5 => some 10
  | _ => none

/-- The designators of a family's register byte `b1` (R64). -/
def designators (icode : Nibble) (b1 : Byte) : Option Reg × Option Reg :=
  match icode.toNat with
  | 0x2 | 0x4 | 0x5 | 0x6 => (some (nibbleReg (hiNibble b1)), some (nibbleReg (loNibble b1)))
  | 0x3 => (none, some (nibbleReg (loNibble b1)))
  | 0xA | 0xB => (some (nibbleReg (hiNibble b1)), none)
  | _ => (none, none)

/-- `valC` (R66, R67): the quadword at offset 2 in format F10 and 1 in format F9, else 0. -/
def decodedValC (m : Memory) (a len : Nat) : Word :=
  match len with
  | 10 => m.quad (a + 2)
  | 9 => m.quad (a + 1)
  | _ => 0

/-- `decode(S)`, the pseudocode of R72 line by line. It writes nothing (R80). -/
def fdu (s : State) : FduOut :=
  match s.readByte s.pc with
  | none => .fail (.errFetchOob s.pc)
  | some b0 =>
    let icode := hiNibble b0
    let ifun := loNibble b0
    match lengthOf icode with
    | none => .fail (.errInvalid s.pc b0)
    | some len =>
      if (icode = 0x6 ∨ icode = 0x7) ∧ 6 < ifun.toNat then .fail (.errInvalid s.pc b0)
      else if s.params.memSize < s.pc.toNat + len then .fail (.errTruncated s.pc len)
      else
        let regs := designators icode (s.mem.read (s.pc.toNat + 1))
        .decoded
          { icode := icode, ifun := ifun, rA := regs.1, rB := regs.2,
            valC := decodedValC s.mem s.pc.toNat len, start := s.pc, valP := s.valP len }
          (icode != 0x0)

/-- The execution units (R89); `moveJump` is the spec's notional fourth. -/
inductive ExecUnit where
  | simple
  | alu
  | stack
  | moveJump
deriving DecidableEq, Repr

/-- `DISPATCH[icode]` (R89). Halt is not dispatched, and a family that names nothing reaches no unit. -/
def dispatchUnit (icode : Nibble) : Option ExecUnit :=
  match icode.toNat with
  | 0x1 | 0x3 | 0x4 | 0x5 => some .simple
  | 0x6 => some .alu
  | 0x8 | 0x9 | 0xA | 0xB => some .stack
  | 0x2 | 0x7 => some .moveJump
  | _ => none

/-- The register-move a code selects (R70). -/
def moveInstr (ifun : Nibble) (rA rB : Reg) (c : Word) : Instr :=
  match ifun.toNat with
  | 0 => .rrmovq rA rB c
  | 1 => .cmovle rA rB c
  | 2 => .cmovl rA rB c
  | 3 => .cmove rA rB c
  | 4 => .cmovne rA rB c
  | 5 => .cmovge rA rB c
  | 6 => .cmovg rA rB c
  | _ => .registerMoveOther ifun rA rB c

/-- The arithmetic/logic instruction a code selects (R68). -/
def opqInstr (ifun : Nibble) (rA rB : Reg) : Option Instr :=
  match ifun.toNat with
  | 0 => some (.addq rA rB)
  | 1 => some (.subq rA rB)
  | 2 => some (.andq rA rB)
  | 3 => some (.xorq rA rB)
  | 4 => some (.mulq rA rB)
  | 5 => some (.divq rA rB)
  | 6 => some (.modq rA rB)
  | _ => none

/-- The jump a code selects (R69). -/
def jumpInstr (ifun : Nibble) (c : Word) : Option Instr :=
  match ifun.toNat with
  | 0 => some (.jmp c)
  | 1 => some (.jle c)
  | 2 => some (.jl c)
  | 3 => some (.je c)
  | 4 => some (.jne c)
  | 5 => some (.jge c)
  | 6 => some (.jg c)
  | _ => none

/-- The instruction a unit finds in `D`. A nibble the decoder ignores is not in `D` (R64); any value stands for it. -/
def Decoded.instr (d : Decoded) : Option Instr :=
  match d.icode.toNat, d.rA, d.rB with
  | 0x1, _, _ => some (.nop d.ifun)
  | 0x2, some a, some b => some (moveInstr d.ifun a b d.valC)
  | 0x3, _, some b => some (.irmovq d.ifun 0xF b d.valC)
  | 0x4, some a, some b => some (.rmmovq d.ifun a b d.valC)
  | 0x5, some a, some b => some (.mrmovq d.ifun a b d.valC)
  | 0x6, some a, some b => opqInstr d.ifun a b
  | 0x7, _, _ => jumpInstr d.ifun d.valC
  | 0x8, _, _ => some (.call d.ifun d.valC)
  | 0x9, _, _ => some (.ret d.ifun)
  | 0xA, some a, _ => some (.pushq d.ifun a 0xF)
  | 0xB, some a, _ => some (.popq d.ifun a 0xF)
  | _, _, _ => none

/-- `execute_u(S, D)` (R86). A unit handed a family that is not its own, halt among them (R105), or a code it
does not know (R95) raises ERR_UNRECOGNIZED with nothing else changed (R90). -/
def unitExecute (u : ExecUnit) (d : Decoded) (s : State) : Result :=
  if dispatchUnit d.icode = some u then
    match d.instr with
    | some i => exec i s
    | none => s.raise (.errUnrecognized d.start)
  else s.raise (.errUnrecognized d.start)

/-- `step(S)` for `S.STAT = AOK`, the pseudocode of R86 line by line. -/
def cycle (s : State) : Result :=
  match fdu s with
  | .fail e => s.raise e
  | .decoded _ false => s.raise .hlt
  | .decoded d true =>
    match dispatchUnit d.icode with
    | some u => unitExecute u d s
    | none => s.raise (.errUnrecognized d.start)

end Sys2Proof.Machine
end

