-- ==== Sys2Proof/Safety.lean ====
section
/-! DEFINITION. The terms claims about runs are written in: the invariant, the codes and classes of outcomes, and the
states a machine can reach. -/

namespace Sys2Proof.Machine

/-- What holds of every state a launch leaves and every step keeps: memory in its canonical form, no cell outside
`[0, MEM_SIZE)` (R42), and `MEM_SIZE` within its bound (R9). -/
abbrev State.Inv (s : State) : Prop :=
  Memory.wf s.mem ∧ (∀ c ∈ s.mem, c.1 < s.params.memSize) ∧ s.params.wf

/-- The code of an outcome (R134). -/
def Stat.code : Stat → Nat
  | .aok => 0
  | .hlt => 1
  | .errFetchOob _ => 2
  | .errTruncated _ _ => 3
  | .errInvalid _ _ => 4
  | .errMemOob _ _ => 5
  | .errUnrecognized _ => 6
  | .errDivZero _ => 7

/-- The classes of outcomes (R134). -/
inductive StatClass where
  | running
  | normalTermination
  | decodeError
  | executeError
deriving DecidableEq, Repr

/-- The class of an outcome (R134). -/
def Stat.kind : Stat → StatClass
  | .aok => .running
  | .hlt => .normalTermination
  | .errFetchOob _ | .errTruncated _ _ | .errInvalid _ _ => .decodeError
  | .errMemOob _ _ | .errUnrecognized _ | .errDivZero _ => .executeError

/-- `t` is reached from `s` by steps (R87). -/
inductive Reaches (s : State) : State → Prop where
  | start : Reaches s s
  | more {t u : State} : Reaches s t → step t = .next u → Reaches s u

/-- A final state: no step exists from it (R87). -/
abbrev State.final (s : State) : Prop := s.stat ≠ .aok

/-- The arithmetic/logic instructions (R68), the only ones that write flags (R32). -/
def Instr.isOpq : Instr → Bool
  | .addq _ _ | .subq _ _ | .andq _ _ | .xorq _ _ | .mulq _ _ | .divq _ _ | .modq _ _ => true
  | _ => false

/-- The next state an outcome holds, if it is one. -/
def nextState : Result → Option State
  | .next s => some s
  | .fault _ | .refused _ => none

end Sys2Proof.Machine
end

