-- ==== Sys2Proof/Certificates/Slice0/Obligations.lean ====
section
/-! DEFINITION. The statements about this machine. Each says which rule of spec/ it comes from. The first part is the
vocabulary: encodings and values written with Nat arithmetic from the spec's own tables, and frames. -/

namespace Sys2Proof.Claims

open Sys2Proof.Machine

/-- The opcode byte `icode:ifun` (R60). -/
def opcodeByte (icode ifun : Nat) : Byte := BitVec.ofNat 8 (16 * icode + ifun)

/-- The register byte `rA:rB` (R63). -/
def regByte (a b : Nat) : Byte := BitVec.ofNat 8 (16 * a + b)

/-- Byte `i` of a quadword, `v[8i+7:8i]` (R46). -/
def byteOf (v : Word) (i : Nat) : Byte := BitVec.ofNat 8 (v.toNat / 2 ^ (8 * i))

/-- The eight bytes of an immediate, least significant first (R66). -/
def leBytes (v : Word) : List Byte :=
  [byteOf v 0, byteOf v 1, byteOf v 2, byteOf v 3, byteOf v 4, byteOf v 5, byteOf v 6, byteOf v 7]

/-- `M[a] + 2^8*M[a+1] + … + 2^56*M[a+7]` (R45). -/
def quadValue (m : Memory) (a : Nat) : Nat :=
  (m.read a).toNat + 2 ^ 8 * (m.read (a + 1)).toNat + 2 ^ 16 * (m.read (a + 2)).toNat
    + 2 ^ 24 * (m.read (a + 3)).toNat + 2 ^ 32 * (m.read (a + 4)).toNat
    + 2 ^ 40 * (m.read (a + 5)).toNat + 2 ^ 48 * (m.read (a + 6)).toNat
    + 2 ^ 56 * (m.read (a + 7)).toNat

/-- The access of eight bytes at `a` passes the bounds check, in exact integers (R43). -/
def QuadFits (s : State) (a : Word) : Prop := a.toNat + 8 ≤ s.params.memSize

def SameMem (s t : State) : Prop := ∀ a : Nat, t.mem.read a = s.mem.read a

/-- The eight bytes at `a` are those of `v`, and every other byte of memory is as before (R46). -/
def StoresQuad (s t : State) (a : Nat) (v : Word) : Prop :=
  (∀ i < 8, t.mem.read (a + i) = byteOf v i) ∧
    ∀ b : Nat, b < a ∨ a + 8 ≤ b → t.mem.read b = s.mem.read b

def SameRegs (s t : State) : Prop := ∀ q : Reg, t.reg q = s.reg q

def SameRegsBut (r : Reg) (s t : State) : Prop := ∀ q : Reg, q ≠ r → t.reg q = s.reg q

def SameFlags (s t : State) : Prop := t.zf = s.zf ∧ t.sf = s.sf

/-- The latch and the parameters, which nothing else is (R20). -/
def SameRest (s t : State) : Prop := t.stat = s.stat ∧ t.params = s.params

/-- What a successful arithmetic/logic instruction does when its result is the number `r`: the destination, both
flags by R94, the pc past the two bytes, and nothing else. -/
def OpqEffect (s t : State) (rB : Reg) (r : Nat) : Prop :=
  (t.reg rB).toNat = r ∧ SameRegsBut rB s t ∧ (t.zf = true ↔ r = 0) ∧ (t.sf = true ↔ 2 ^ 63 ≤ r) ∧
    t.pc = s.pc + 2 ∧ SameMem s t ∧ SameRest s t

/-- A register-move instruction with code `ifun` and condition `c` (44_move_jump.md section 2). -/
def MoveRule (ifun : Nat) (mk : Reg → Reg → Word → Instr) (c : Bool → Bool → Bool) : Prop :=
  ∀ (rA rB : Reg) (v : Word),
    (∀ rest, decode (opcodeByte 0x2 ifun :: regByte rA rB :: (leBytes v ++ rest)) = .ok (mk rA rB v) rest) ∧
    ∀ s : State,
      (s.params.moveJumpExec = .y86 →
        ∃ t, exec (mk rA rB v) s = .next t ∧
          t.reg rB = (if c s.zf s.sf then s.reg rA else s.reg rB) ∧ SameRegsBut rB s t ∧ SameFlags s t ∧
          t.pc = s.pc + 10 ∧ SameMem s t ∧ SameRest s t) ∧
      (s.params.moveJumpExec = .fault →
        exec (mk rA rB v) s = .next { s with stat := .errUnrecognized s.pc })

/-- A conditional-jump instruction with code `ifun` and condition `c` (44_move_jump.md section 3). -/
def JumpRule (ifun : Nat) (mk : Word → Instr) (c : Bool → Bool → Bool) : Prop :=
  ∀ v : Word,
    (∀ rest, decode (opcodeByte 0x7 ifun :: (leBytes v ++ rest)) = .ok (mk v) rest) ∧
    ∀ s : State,
      (s.params.moveJumpExec = .y86 →
        ∃ t, exec (mk v) s = .next t ∧
          t.pc = (if c s.zf s.sf then v else s.pc + 9) ∧ SameRegs s t ∧ SameFlags s t ∧ SameMem s t ∧
          SameRest s t) ∧
      (s.params.moveJumpExec = .fault →
        exec (mk v) s = .next { s with stat := .errUnrecognized s.pc })

/-- The bytes of `i` stand at the pc, inside memory. -/
def InstrAtPc (s : State) (i : Instr) : Prop :=
  s.pc.toNat + i.length ≤ s.params.memSize ∧
    ∀ k (h : k < (encode i).length), s.mem.read (s.pc.toNat + k) = (encode i)[k]

/-- The opcode bytes that decode refuses (R74, R75). -/
def IllegalByte (b : Byte) : Prop :=
  0xC ≤ b.toNat / 16 ∨ (b.toNat / 16 = 6 ∨ b.toNat / 16 = 7) ∧ 6 < b.toNat % 16

/-- `LENGTH` as the spec tabulates it, by the high nibble (R81). -/
def tableLength : Nat → Nat
  | 0x0 => 1
  | 0x1 => 1
  | 0x2 => 10
  | 0x3 => 10
  | 0x4 => 10
  | 0x5 => 10
  | 0x6 => 2
  | 0x7 => 9
  | 0x8 => 9
  | 0x9 => 1
  | 0xA => 2
  | 0xB => 2
  | _ => 0

/-- The registers an instruction may write (R25). -/
def mayWrite : Instr → List Reg
  | .rrmovq _ b _ | .cmovle _ b _ | .cmovl _ b _ | .cmove _ b _ | .cmovne _ b _ | .cmovge _ b _
  | .cmovg _ b _ | .irmovq _ _ b _ | .addq _ b | .subq _ b | .andq _ b | .xorq _ b | .mulq _ b
  | .divq _ b | .modq _ b => [b]
  | .mrmovq _ a _ _ => [a]
  | .call _ _ | .ret _ | .pushq _ _ _ => [4]
  | .popq _ a _ => [a, 4]
  | _ => []

/-- The registers an instruction may read (R25). -/
def mayRead : Instr → List Reg
  | .rrmovq a _ _ | .cmovle a _ _ | .cmovl a _ _ | .cmove a _ _ | .cmovne a _ _ | .cmovge a _ _
  | .cmovg a _ _ => [a]
  | .rmmovq _ a b _ | .addq a b | .subq a b | .andq a b | .xorq a b | .mulq a b | .divq a b
  | .modq a b => [a, b]
  | .mrmovq _ _ b _ => [b]
  | .call _ _ | .ret _ | .popq _ _ _ => [4]
  | .pushq _ a _ => [a, 4]
  | _ => []

/-- The address of the quadword an instruction stores, if it is one that stores (R108, R112, R114). -/
def storeAddr : Instr → State → Option Word
  | .rmmovq _ _ b d, s => some (s.reg b + d)
  | .call _ _, s | .pushq _ _ _, s => some (s.reg 4 - 8)
  | _, _ => none

end Sys2Proof.Claims

section

open Sys2Proof Sys2Proof.Machine Sys2Proof.Claims

/-! ## Decoding -/

/-- 95_test_vectors.md section 2.1 and the bytes of R83: words written out by hand decode to the instruction they
stand for, one or more of every family. On the illegal bytes 0x67, 0x78 and 0xC0 the spec's decode fails with
ERR_INVALID (R74, R75); that `decode` answers a one-byte illegal instruction there, whose meaning raises ERR_INVALID,
is the model's choice (DESIGN CHOICE, log entry 7). -/
def Obligations.DecodeOfSampleWords : Prop :=
  decode [0x05] = .ok (.halt 5) [] ∧
  decode [0x10, 0xAA] = .ok (.nop 0) [0xAA] ∧
  decode [0x20, 0x03, 0, 0, 0, 0, 0, 0, 0, 0] = .ok (.rrmovq 0 3 0) [] ∧
  decode [0x27, 0x12, 1, 0, 0, 0, 0, 0, 0, 0] = .ok (.registerMoveOther 7 1 2 1) [] ∧
  decode [0x30, 0x53, 0x88, 0x77, 0x66, 0x55, 0x44, 0x33, 0x22, 0x11]
    = .ok (.irmovq 0 5 3 0x1122334455667788) [] ∧
  decode [0x40, 0x32, 0xF8, 0xFF, 0xFF, 0xFF, 0xFF, 0xFF, 0xFF, 0xFF]
    = .ok (.rmmovq 0 3 2 0xFFFFFFFFFFFFFFF8) [] ∧
  decode [0x50, 0x12, 8, 0, 0, 0, 0, 0, 0, 0] = .ok (.mrmovq 0 1 2 8) [] ∧
  decode [0x61, 0xF0] = .ok (.subq 15 0) [] ∧
  decode [0x67] = .ok (.illegalOpq 7) [] ∧
  decode [0x74, 0x1E, 0, 0, 0, 0, 0, 0, 0] = .ok (.jne 0x1E) [] ∧
  decode [0x78, 0] = .ok (.illegalJxx 8) [0] ∧
  decode [0x80, 0x40, 0, 0, 0, 0, 0, 0, 0] = .ok (.call 0 0x40) [] ∧
  decode [0x9F] = .ok (.ret 15) [] ∧
  decode [0xA0, 0x3C] = .ok (.pushq 0 3 0xC) [] ∧
  decode [0xB0, 0x7A] = .ok (.popq 0 7 0xA) [] ∧
  decode [0xC0] = .ok (.illegalFamily 0xC 0) []

/-- 30_encoding.md: no bit of an encoding is dropped. Decoding the bytes of a well-formed instruction, whatever
follows them, gives the instruction and what follows. The illegal rows take part in the model's one-byte form
(log entry 7). -/
def Obligations.DecodeOfEncode : Prop :=
  ∀ (i : Instr) (rest : List Byte), i.wellFormed = true → decode (encode i ++ rest) = .ok i rest

/-- 30_encoding.md: every string of bytes has one reading. What decodes is well formed and is encoded by the bytes
it was read from. The illegal rows take part in the model's one-byte form (log entry 7). -/
def Obligations.EncodeOfDecode : Prop :=
  ∀ (bs : List Byte) (i : Instr) (rest : List Byte),
    decode bs = .ok i rest → i.wellFormed = true ∧ encode i ++ rest = bs

/-- The spec's inference R81 from R61 and R72: the length of a legal instruction is the table's entry for the high
nibble of byte 0. -/
def Obligations.LengthByHighNibble : Prop :=
  ∀ (i : Instr), i.wellFormed = true → ∀ (b0 : Byte) (bs : List Byte), encode i = b0 :: bs →
    ¬ IllegalByte b0 → (encode i).length = tableLength (b0.toNat / 16) ∧ i.length = tableLength (b0.toNat / 16)

/-! ## The step -/

/-- R86: a step from `AOK` whose fetched bytes decode to an instruction is the meaning of that instruction. -/
def Obligations.StepRunsTheDecodedInstruction : Prop :=
  ∀ (s : State) (i : Instr) (rest : List Byte), s.stat = .aok → decode s.fetchBytes = .ok i rest →
    step s = exec i s

/-- R86, R62: when the bytes of a well-formed instruction stand at the pc inside memory, the step is its meaning. -/
def Obligations.StepRunsTheInstructionInMemory : Prop :=
  ∀ (s : State) (i : Instr), s.stat = .aok → i.wellFormed = true → InstrAtPc s i → step s = exec i s

/-- R86: the step is the spec's own pseudocode, with the fetch/decode unit of R72 and dispatch by R89 of a decoded
instruction that holds only the fields of R79. -/
def Obligations.StepIsTheCycle : Prop :=
  ∀ s : State, s.stat = .aok → step s = cycle s

/-- R87: no step exists from a state with `STAT != AOK`, and so a final state reaches only itself. -/
def Obligations.FinalStatesAreStuck : Prop :=
  ∀ s : State, s.final → step s = .fault (.stopped s.stat) ∧ ∀ t, Reaches s t → t = s

/-- R73: with the pc outside memory readByte fails, decode fails, and the step records the pc in ERR_FETCH_OOB and
changes nothing else. -/
def Obligations.FetchOutOfBounds : Prop :=
  ∀ s : State, s.stat = .aok → s.params.memSize ≤ s.pc.toNat →
    s.readByte s.pc = none ∧ fdu s = .fail (.errFetchOob s.pc) ∧
      step s = .next { s with stat := .errFetchOob s.pc }

/-- R74, R75: an illegal opcode byte at the pc makes decode fail and gives ERR_INVALID with the pc and the byte, and
nothing else changes. No length enters, so this comes before truncation (R72). -/
def Obligations.IllegalByteIsInvalid : Prop :=
  ∀ (s : State) (b0 : Byte), s.stat = .aok → s.pc.toNat < s.params.memSize → s.mem.read s.pc.toNat = b0 →
    IllegalByte b0 →
      fdu s = .fail (.errInvalid s.pc b0) ∧ step s = .next { s with stat := .errInvalid s.pc b0 }

/-- R76: a legal instruction of which some byte lies past the end of memory makes decode fail and gives ERR_TRUNCATED
with the pc and its length, and nothing else changes. -/
def Obligations.TruncatedInstruction : Prop :=
  ∀ (s : State) (b0 : Byte), s.stat = .aok → s.pc.toNat < s.params.memSize → s.mem.read s.pc.toNat = b0 →
    ¬ IllegalByte b0 → s.params.memSize < s.pc.toNat + tableLength (b0.toNat / 16) →
      fdu s = .fail (.errTruncated s.pc (tableLength (b0.toNat / 16))) ∧
        step s = .next { s with stat := .errTruncated s.pc (tableLength (b0.toNat / 16)) }

/-- R77, R79, R64, R66, R67: the decoded instruction the fetch/decode unit gives for a legal instruction that
fits: opcode nibbles, designators with `NONE` where the family has none, `valC`, `start` and `valP`. -/
def Obligations.DecodedFields : Prop :=
  ∀ (s : State) (b0 b1 : Byte), s.mem.read s.pc.toNat = b0 → s.mem.read (s.pc.toNat + 1) = b1 →
    ¬ IllegalByte b0 → s.pc.toNat + tableLength (b0.toNat / 16) ≤ s.params.memSize →
    ∃ d : Decoded, fdu s = .decoded d (b0.toNat / 16 != 0) ∧
      d.icode.toNat = b0.toNat / 16 ∧ d.ifun.toNat = b0.toNat % 16 ∧
      d.rA.map (·.val) = (if b0.toNat / 16 ∈ [2, 4, 5, 6, 0xA, 0xB] then some (b1.toNat / 16) else none) ∧
      d.rB.map (·.val) = (if b0.toNat / 16 ∈ [2, 3, 4, 5, 6] then some (b1.toNat % 16) else none) ∧
      d.valC.toNat = (if b0.toNat / 16 ∈ [2, 3, 4, 5] then quadValue s.mem (s.pc.toNat + 2)
        else if b0.toNat / 16 ∈ [7, 8] then quadValue s.mem (s.pc.toNat + 1) else 0) ∧
      d.start = s.pc ∧ d.valP.toNat = (s.pc.toNat + tableLength (b0.toNat / 16)) % 2 ^ 64

/-- R90: a unit handed a family that is not its own raises ERR_UNRECOGNIZED and changes nothing else. -/
def Obligations.UnitRejectsOtherFamilies : Prop :=
  ∀ (u : ExecUnit) (d : Decoded) (s : State), dispatchUnit d.icode ≠ some u →
    unitExecute u d s = .next { s with stat := .errUnrecognized d.start }

/-- R71, R82, R64: the accepted aliases and the ignored fields. Another `ifun` of an unchecked family, another
ignored nibble, and another value in the carried bytes of a register-move change nothing. -/
def Obligations.AliasesActAlike : Prop :=
  ∀ (f g : Nibble) (n m : Nibble) (rA rB : Reg) (v w : Word) (s : State),
    exec (.halt f) s = exec (.halt g) s ∧
    exec (.nop f) s = exec (.nop g) s ∧
    exec (.irmovq f n rB v) s = exec (.irmovq g m rB v) s ∧
    exec (.rmmovq f rA rB v) s = exec (.rmmovq g rA rB v) s ∧
    exec (.mrmovq f rA rB v) s = exec (.mrmovq g rA rB v) s ∧
    exec (.call f v) s = exec (.call g v) s ∧
    exec (.ret f) s = exec (.ret g) s ∧
    exec (.pushq f rA n) s = exec (.pushq g rA m) s ∧
    exec (.popq f rA n) s = exec (.popq g rA m) s ∧
    exec (.rrmovq rA rB v) s = exec (.rrmovq rA rB w) s ∧
    exec (.cmovle rA rB v) s = exec (.cmovle rA rB w) s ∧
    exec (.cmovl rA rB v) s = exec (.cmovl rA rB w) s ∧
    exec (.cmove rA rB v) s = exec (.cmove rA rB w) s ∧
    exec (.cmovne rA rB v) s = exec (.cmovne rA rB w) s ∧
    exec (.cmovge rA rB v) s = exec (.cmovge rA rB w) s ∧
    exec (.cmovg rA rB v) s = exec (.cmovg rA rB w) s ∧
    exec (.registerMoveOther f rA rB v) s = exec (.registerMoveOther f rA rB w) s

/-! ## Arithmetic/logic -/

/-- R96: addq, with its encoding, result, flags, pc and frame. It always completes. -/
def Obligations.AddqRule : Prop :=
  ∀ rA rB : Reg,
    (∀ rest, decode (opcodeByte 0x6 0 :: regByte rA rB :: rest) = .ok (.addq rA rB) rest) ∧
    ∀ s : State, ∃ t, exec (.addq rA rB) s = .next t ∧
      OpqEffect s t rB (((s.reg rB).toNat + (s.reg rA).toNat) % 2 ^ 64)

/-- R97: subq. The difference is `R[rB] - R[rA]` modulo 2^64. -/
def Obligations.SubqRule : Prop :=
  ∀ rA rB : Reg,
    (∀ rest, decode (opcodeByte 0x6 1 :: regByte rA rB :: rest) = .ok (.subq rA rB) rest) ∧
    ∀ s : State, ∃ t, exec (.subq rA rB) s = .next t ∧
      OpqEffect s t rB (((s.reg rB).toNat + 2 ^ 64 - (s.reg rA).toNat) % 2 ^ 64)

/-- R98: andq. -/
def Obligations.AndqRule : Prop :=
  ∀ rA rB : Reg,
    (∀ rest, decode (opcodeByte 0x6 2 :: regByte rA rB :: rest) = .ok (.andq rA rB) rest) ∧
    ∀ s : State, ∃ t, exec (.andq rA rB) s = .next t ∧
      OpqEffect s t rB ((s.reg rB).toNat &&& (s.reg rA).toNat)

/-- R99: xorq. -/
def Obligations.XorqRule : Prop :=
  ∀ rA rB : Reg,
    (∀ rest, decode (opcodeByte 0x6 3 :: regByte rA rB :: rest) = .ok (.xorq rA rB) rest) ∧
    ∀ s : State, ∃ t, exec (.xorq rA rB) s = .next t ∧
      OpqEffect s t rB ((s.reg rB).toNat ^^^ (s.reg rA).toNat)

/-- R100: mulq keeps the low 64 bits of the product. -/
def Obligations.MulqRule : Prop :=
  ∀ rA rB : Reg,
    (∀ rest, decode (opcodeByte 0x6 4 :: regByte rA rB :: rest) = .ok (.mulq rA rB) rest) ∧
    ∀ s : State, ∃ t, exec (.mulq rA rB) s = .next t ∧
      OpqEffect s t rB (((s.reg rB).toNat * (s.reg rA).toNat) % 2 ^ 64)

/-- R101: divq, the unsigned quotient of `R[rB]` by `R[rA]`, and ERR_DIV_ZERO with nothing else changed. -/
def Obligations.DivqRule : Prop :=
  ∀ rA rB : Reg,
    (∀ rest, decode (opcodeByte 0x6 5 :: regByte rA rB :: rest) = .ok (.divq rA rB) rest) ∧
    ∀ s : State,
      (s.reg rA ≠ 0 → ∃ t, exec (.divq rA rB) s = .next t ∧
        OpqEffect s t rB ((s.reg rB).toNat / (s.reg rA).toNat)) ∧
      (s.reg rA = 0 → exec (.divq rA rB) s = .next { s with stat := .errDivZero s.pc })

/-- R102: modq, the unsigned remainder, and ERR_DIV_ZERO with nothing else changed. -/
def Obligations.ModqRule : Prop :=
  ∀ rA rB : Reg,
    (∀ rest, decode (opcodeByte 0x6 6 :: regByte rA rB :: rest) = .ok (.modq rA rB) rest) ∧
    ∀ s : State,
      (s.reg rA ≠ 0 → ∃ t, exec (.modq rA rB) s = .next t ∧
        OpqEffect s t rB ((s.reg rB).toNat % (s.reg rA).toNat)) ∧
      (s.reg rA = 0 → exec (.modq rA rB) s = .next { s with stat := .errDivZero s.pc })

/-- The spec's inference R103 from R101 and R102: from one state, divide and modulo by a non-zero register satisfy
`b = a*floor(b/a) + (b mod a)` with the remainder below the divisor. -/
def Obligations.QuotientAndRemainder : Prop :=
  ∀ (rA rB : Reg) (s t u : State), s.reg rA ≠ 0 → exec (.divq rA rB) s = .next t →
    exec (.modq rA rB) s = .next u →
    (s.reg rB).toNat = (s.reg rA).toNat * (t.reg rB).toNat + (u.reg rB).toNat ∧
      (u.reg rB).toNat < (s.reg rA).toNat

/-- The spec's inferences in R32 and R94: an instruction that changes a flag ran an arithmetic/logic instruction
that succeeded, and after it the two flags are not both set. -/
def Obligations.OnlyOpqWritesFlags : Prop :=
  ∀ (i : Instr) (s t : State), exec i s = .next t → ¬ SameFlags s t →
    Instr.isOpq i = true ∧ t.stat = s.stat ∧ (t.zf && t.sf) = false

/-! ## Simple operations -/

/-- R105: halt, with any `ifun` and up to the last byte of memory, sets `STAT = HLT` and changes nothing else; a unit
that is handed halt raises ERR_UNRECOGNIZED. -/
def Obligations.HaltRule : Prop :=
  ∀ fn : Nibble,
    (∀ rest, decode (opcodeByte 0x0 fn.toNat :: rest) = .ok (.halt fn) rest) ∧
    (∀ s : State, exec (.halt fn) s = .next { s with stat := .hlt } ∧
      (s.stat = .aok → s.pc.toNat < s.params.memSize → s.mem.read s.pc.toNat = opcodeByte 0x0 fn.toNat →
        step s = .next { s with stat := .hlt })) ∧
    ∀ (u : ExecUnit) (d : Decoded) (s : State), d.icode = 0 →
      unitExecute u d s = .next { s with stat := .errUnrecognized d.start }

/-- R106: nop advances the pc by one and changes nothing else. -/
def Obligations.NopRule : Prop :=
  ∀ fn : Nibble,
    (∀ rest, decode (opcodeByte 0x1 fn.toNat :: rest) = .ok (.nop fn) rest) ∧
    ∀ s : State, exec (.nop fn) s = .next { s with pc := s.pc + 1 }

/-- R107: irmovq loads all 64 bits of the immediate. -/
def Obligations.IrmovqRule : Prop :=
  ∀ (fn ign : Nibble) (rB : Reg) (v : Word),
    (∀ rest, decode (opcodeByte 0x3 fn.toNat :: regByte ign.toNat rB :: (leBytes v ++ rest))
      = .ok (.irmovq fn ign rB v) rest) ∧
    ∀ s : State, ∃ t, exec (.irmovq fn ign rB v) s = .next t ∧
      t.reg rB = v ∧ SameRegsBut rB s t ∧ SameFlags s t ∧ t.pc = s.pc + 10 ∧ SameMem s t ∧ SameRest s t

/-- R108: rmmovq stores `R[rA]` little-endian at `(R[rB] + valC) mod 2^64`, or raises ERR_MEM_OOB with nothing
else changed. -/
def Obligations.RmmovqRule : Prop :=
  ∀ (fn : Nibble) (rA rB : Reg) (d : Word),
    (∀ rest, decode (opcodeByte 0x4 fn.toNat :: regByte rA rB :: (leBytes d ++ rest))
      = .ok (.rmmovq fn rA rB d) rest) ∧
    ∀ s : State,
      (QuadFits s (s.reg rB + d) → ∃ t, exec (.rmmovq fn rA rB d) s = .next t ∧
        StoresQuad s t (s.reg rB + d).toNat (s.reg rA) ∧ SameRegs s t ∧ SameFlags s t ∧
        t.pc = s.pc + 10 ∧ SameRest s t) ∧
      (¬ QuadFits s (s.reg rB + d) →
        exec (.rmmovq fn rA rB d) s = .next { s with stat := .errMemOob (s.reg rB + d) 8 })

/-- R109: mrmovq loads the quadword at `(R[rB] + valC) mod 2^64` into `R[rA]`, or raises ERR_MEM_OOB with nothing
else changed. -/
def Obligations.MrmovqRule : Prop :=
  ∀ (fn : Nibble) (rA rB : Reg) (d : Word),
    (∀ rest, decode (opcodeByte 0x5 fn.toNat :: regByte rA rB :: (leBytes d ++ rest))
      = .ok (.mrmovq fn rA rB d) rest) ∧
    ∀ s : State,
      (QuadFits s (s.reg rB + d) → ∃ t, exec (.mrmovq fn rA rB d) s = .next t ∧
        (t.reg rA).toNat = quadValue s.mem (s.reg rB + d).toNat ∧ SameRegsBut rA s t ∧ SameFlags s t ∧
        t.pc = s.pc + 10 ∧ SameMem s t ∧ SameRest s t) ∧
      (¬ QuadFits s (s.reg rB + d) →
        exec (.mrmovq fn rA rB d) s = .next { s with stat := .errMemOob (s.reg rB + d) 8 })

/-- R74: the opcode families 0xC to 0xF raise ERR_INVALID with nothing else changed. That they decode to a one-byte
illegal instruction, where the spec's decode fails, is the model's choice (log entry 7). -/
def Obligations.IllegalFamilyRaises : Prop :=
  ∀ icode fn : Nibble,
    (0xC ≤ icode.toNat → ∀ rest,
      decode (opcodeByte icode.toNat fn.toNat :: rest) = .ok (.illegalFamily icode fn) rest) ∧
    ∀ s : State, exec (.illegalFamily icode fn) s =
      .next { s with stat := .errInvalid s.pc (opcodeByte icode.toNat fn.toNat) }

/-- The spec's inference R110 from R108 and R109: a load at the effective address of an earlier store returns the
stored value, when the eight bytes were left alone in between. -/
def Obligations.StoreThenLoad : Prop :=
  ∀ (f g : Nibble) (rA rB rC rD : Reg) (d e : Word) (s t u w : State),
    s.stat = .aok → t.stat = .aok → u.stat = .aok → w.stat = .aok →
    exec (.rmmovq f rA rB d) s = .next t →
    (∀ i < 8, u.mem.read ((s.reg rB + d).toNat + i) = t.mem.read ((s.reg rB + d).toNat + i)) →
    u.reg rD + e = s.reg rB + d →
    exec (.mrmovq g rC rD e) u = .next w → w.reg rC = s.reg rA

/-! ## The stack -/

/-- R112: call, on success and, under both values of `STACK_FAIL_MODE`, when its store fails. -/
def Obligations.CallRule : Prop :=
  ∀ (fn : Nibble) (target : Word),
    (∀ rest, decode (opcodeByte 0x8 fn.toNat :: (leBytes target ++ rest)) = .ok (.call fn target) rest) ∧
    ∀ s : State,
      (QuadFits s (s.reg 4 - 8) → ∃ t, exec (.call fn target) s = .next t ∧
        t.reg 4 = s.reg 4 - 8 ∧ SameRegsBut 4 s t ∧ StoresQuad s t (s.reg 4 - 8).toNat (s.pc + 9) ∧
        SameFlags s t ∧ t.pc = target ∧ SameRest s t) ∧
      (¬ QuadFits s (s.reg 4 - 8) → s.params.stackFailMode = .rollback →
        exec (.call fn target) s = .next { s with stat := .errMemOob (s.reg 4 - 8) 8 }) ∧
      (¬ QuadFits s (s.reg 4 - 8) → s.params.stackFailMode = .reference →
        ∃ t, exec (.call fn target) s = .next t ∧ t.stat = .errMemOob (s.reg 4 - 8) 8 ∧
          t.reg 4 = s.reg 4 - 8 ∧ SameRegsBut 4 s t ∧ t.pc = s.pc + 9 ∧ SameFlags s t ∧ SameMem s t ∧
          t.params = s.params)

/-- R113: ret, and ERR_MEM_OOB with nothing else changed. -/
def Obligations.RetRule : Prop :=
  ∀ fn : Nibble,
    (∀ rest, decode (opcodeByte 0x9 fn.toNat :: rest) = .ok (.ret fn) rest) ∧
    ∀ s : State,
      (QuadFits s (s.reg 4) → ∃ t, exec (.ret fn) s = .next t ∧
        t.pc.toNat = quadValue s.mem (s.reg 4).toNat ∧ t.reg 4 = s.reg 4 + 8 ∧ SameRegsBut 4 s t ∧
        SameFlags s t ∧ SameMem s t ∧ SameRest s t) ∧
      (¬ QuadFits s (s.reg 4) → exec (.ret fn) s = .next { s with stat := .errMemOob (s.reg 4) 8 })

/-- R114: pushq, with the value `PUSH_SP_VALUE` selects for `pushq %rsp`, and the two failures. -/
def Obligations.PushqRule : Prop :=
  ∀ (fn : Nibble) (rA : Reg) (ign : Nibble),
    (∀ rest, decode (opcodeByte 0xA fn.toNat :: regByte rA ign.toNat :: rest) = .ok (.pushq fn rA ign) rest) ∧
    ∀ s : State,
      (∀ v : Word,
        v = (if rA = 4 then (if s.params.pushSpValue = .old then s.reg 4 else s.reg 4 - 8) else s.reg rA) →
        QuadFits s (s.reg 4 - 8) → ∃ t, exec (.pushq fn rA ign) s = .next t ∧
          t.reg 4 = s.reg 4 - 8 ∧ SameRegsBut 4 s t ∧ StoresQuad s t (s.reg 4 - 8).toNat v ∧
          SameFlags s t ∧ t.pc = s.pc + 2 ∧ SameRest s t) ∧
      (¬ QuadFits s (s.reg 4 - 8) → s.params.stackFailMode = .rollback →
        exec (.pushq fn rA ign) s = .next { s with stat := .errMemOob (s.reg 4 - 8) 8 }) ∧
      (¬ QuadFits s (s.reg 4 - 8) → s.params.stackFailMode = .reference →
        ∃ t, exec (.pushq fn rA ign) s = .next t ∧ t.stat = .errMemOob (s.reg 4 - 8) 8 ∧
          t.reg 4 = s.reg 4 - 8 ∧ SameRegsBut 4 s t ∧ t.pc = s.pc ∧ SameFlags s t ∧ SameMem s t ∧
          t.params = s.params)

/-- R115: popq, with the value `POP_SP_RESULT` selects for `popq %rsp`, and ERR_MEM_OOB with nothing else
changed. -/
def Obligations.PopqRule : Prop :=
  ∀ (fn : Nibble) (rA : Reg) (ign : Nibble),
    (∀ rest, decode (opcodeByte 0xB fn.toNat :: regByte rA ign.toNat :: rest) = .ok (.popq fn rA ign) rest) ∧
    ∀ s : State,
      (∀ v : Word, v.toNat = quadValue s.mem (s.reg 4).toNat → QuadFits s (s.reg 4) →
        ∃ t, exec (.popq fn rA ign) s = .next t ∧
          (rA ≠ 4 → t.reg rA = v ∧ t.reg 4 = s.reg 4 + 8) ∧
          (rA = 4 → t.reg 4 = (if s.params.popSpResult = .loaded then v
            else if s.params.popSpResult = .loadedPlus8 then v + 8 else s.reg 4 + 8)) ∧
          (∀ q, q ≠ rA → q ≠ 4 → t.reg q = s.reg q) ∧
          SameFlags s t ∧ t.pc = s.pc + 2 ∧ SameMem s t ∧ SameRest s t) ∧
      (¬ QuadFits s (s.reg 4) →
        exec (.popq fn rA ign) s = .next { s with stat := .errMemOob (s.reg 4) 8 })

/-- The spec's inference R116 from R112 and R113: a ret that finds the stack as a call left it comes back to the
call's `valP` with the stack pointer as before the call. -/
def Obligations.CallThenRet : Prop :=
  ∀ (f g : Nibble) (target : Word) (s t u w : State),
    s.stat = .aok → t.stat = .aok → u.stat = .aok → w.stat = .aok →
    exec (.call f target) s = .next t → u.reg 4 = t.reg 4 →
    (∀ i < 8, u.mem.read ((t.reg 4).toNat + i) = t.mem.read ((t.reg 4).toNat + i)) →
    exec (.ret g) u = .next w → w.pc = s.pc + 9 ∧ w.reg 4 = s.reg 4

/-- The spec's inference R117 from R114 and R115: a push of one register followed by a pop into another moves the
value and restores the stack pointer. -/
def Obligations.PushThenPop : Prop :=
  ∀ (f g m n : Nibble) (rX rY : Reg) (s t u : State),
    s.stat = .aok → t.stat = .aok → u.stat = .aok → rX ≠ 4 → rY ≠ 4 →
    exec (.pushq f rX m) s = .next t → exec (.popq g rY n) t = .next u →
    u.reg rY = s.reg rX ∧ u.reg 4 = s.reg 4

/-! ## Register-move and conditional-jump -/

/-- R120 to R126: the seven register-moves under both values of `MOVE_JUMP_EXEC`. -/
def Obligations.RegisterMoveRules : Prop :=
  MoveRule 0 .rrmovq (fun _ _ => true) ∧
  MoveRule 1 .cmovle (fun zf sf => sf || zf) ∧
  MoveRule 2 .cmovl (fun _ sf => sf) ∧
  MoveRule 3 .cmove (fun zf _ => zf) ∧
  MoveRule 4 .cmovne (fun zf _ => !zf) ∧
  MoveRule 5 .cmovge (fun _ sf => !sf) ∧
  MoveRule 6 .cmovg (fun zf sf => !sf && !zf)

/-- R70: a register-move with `ifun` 7 to 0xF decodes, and raises ERR_UNRECOGNIZED in both modes with nothing else
changed. -/
def Obligations.RegisterMoveOtherFaults : Prop :=
  ∀ (fn : Nibble) (rA rB : Reg) (v : Word),
    (7 ≤ fn.toNat → ∀ rest, decode (opcodeByte 0x2 fn.toNat :: regByte rA rB :: (leBytes v ++ rest))
      = .ok (.registerMoveOther fn rA rB v) rest) ∧
    ∀ s : State, exec (.registerMoveOther fn rA rB v) s = .next { s with stat := .errUnrecognized s.pc }

/-- R127 to R133: the seven jumps under both values of `MOVE_JUMP_EXEC`. -/
def Obligations.ConditionalJumpRules : Prop :=
  JumpRule 0 .jmp (fun _ _ => true) ∧
  JumpRule 1 .jle (fun zf sf => sf || zf) ∧
  JumpRule 2 .jl (fun _ sf => sf) ∧
  JumpRule 3 .je (fun zf _ => zf) ∧
  JumpRule 4 .jne (fun zf _ => !zf) ∧
  JumpRule 5 .jge (fun _ sf => !sf) ∧
  JumpRule 6 .jg (fun zf sf => !sf && !zf)

/-- R75: the arithmetic/logic and the conditional-jump codes 7 to 0xF decode to illegal instructions, and these raise
ERR_INVALID with the pc and byte 0, whatever the parameters, with nothing else changed. That they
decode to one-byte illegal instructions, where the spec's decode fails, is the model's choice (log entry 7). -/
def Obligations.IllegalCodesRaise : Prop :=
  ∀ fn : Nibble,
    (7 ≤ fn.toNat → ∀ rest, decode (opcodeByte 0x6 fn.toNat :: rest) = .ok (.illegalOpq fn) rest ∧
      decode (opcodeByte 0x7 fn.toNat :: rest) = .ok (.illegalJxx fn) rest) ∧
    ∀ s : State,
      exec (.illegalOpq fn) s = .next { s with stat := .errInvalid s.pc (opcodeByte 0x6 fn.toNat) } ∧
      exec (.illegalJxx fn) s = .next { s with stat := .errInvalid s.pc (opcodeByte 0x7 fn.toNat) }

/-- The spec's inference in R32: under `MOVE_JUMP_EXEC = fault` nothing reads the flags. Whatever they hold, a step
does the same to all the rest of the state. -/
def Obligations.FlagsUnreadUnderFault : Prop :=
  ∀ (s t : State) (z f : Bool), s.params.moveJumpExec = .fault → step s = .next t →
    ∃ u, step (s.setFlags z f) = .next u ∧ u = t.setFlags u.zf u.sf

/-! ## Memory primitives -/

/-- R44, R45: readByte, and readQuad as the sum of the eight bytes weighted little-endian, or Fail. -/
def Obligations.ReadPrimitives : Prop :=
  ∀ (s : State) (a : Word),
    (a.toNat < s.params.memSize → s.readByte a = some (s.mem.read a.toNat)) ∧
    (s.params.memSize ≤ a.toNat → s.readByte a = none) ∧
    (QuadFits s a → ∃ v, s.readQuad a = some v ∧ v.toNat = quadValue s.mem a.toNat) ∧
    (¬ QuadFits s a → s.readQuad a = none)

/-- R46: writeQuad sets the eight bytes and no other, and no register, flag or pc; a failing one gives Fail. -/
def Obligations.WriteQuadPrimitive : Prop :=
  ∀ (s : State) (a v : Word),
    (QuadFits s a → ∃ t, s.writeQuad a v = some t ∧ StoresQuad s t a.toNat v ∧ SameRegs s t ∧
      SameFlags s t ∧ t.pc = s.pc ∧ SameRest s t) ∧
    (¬ QuadFits s a → s.writeQuad a v = none)

/-- The spec's inference R49 from R44 to R46: after writeQuad the same address reads back whole, and each of its
bytes reads back alone. -/
def Obligations.WriteThenRead : Prop :=
  ∀ (s t : State) (a v : Word), s.writeQuad a v = some t →
    t.readQuad a = some v ∧
      ∀ i < 8, ∀ b : Word, b.toNat = a.toNat + i → t.readByte b = some (byteOf v i)

/-- R43: an address within eight bytes of 2^64 never passes the check by wrapping, whatever `MEM_SIZE` is. -/
def Obligations.NoWrapInBoundsCheck : Prop :=
  ∀ (s : State) (a v : Word), s.params.wf → 2 ^ 64 < a.toNat + 8 →
    s.readQuad a = none ∧ s.writeQuad a v = none

/-- The spec's inferences R58 and R155: a stored instruction is the next one fetched. A store that puts a whole
instruction right after itself is followed by that instruction. -/
def Obligations.FetchSeesTheStore : Prop :=
  ∀ (fn : Nibble) (rA rB : Reg) (d : Word) (i : Instr) (rest : List Byte) (s : State),
    s.stat = .aok → InstrAtPc s (.rmmovq fn rA rB d) → s.reg rB + d = s.pc + 10 →
    QuadFits s (s.pc + 10) → i.wellFormed = true → leBytes (s.reg rA) = encode i ++ rest →
    ∃ t, step s = .next t ∧ step t = exec i t

/-! ## Whole-machine rules -/

/-- R9, R42 and the canonical form (log entry 3): every step keeps the invariant. -/
def Obligations.StepKeepsInv : Prop :=
  ∀ s t : State, s.Inv → step s = .next t → t.Inv

/-- The invariant holds after reset. -/
def Obligations.ResetHasInv : Prop := State.reset.Inv

/-- R149, R150: a launch leaves the caller's registers, flags and image, `pc = ENTRY` and `STAT = AOK`; with a
legal `MEM_SIZE` it establishes the invariant. -/
def Obligations.LaunchRule : Prop :=
  ∀ (p : Params) (image : List Byte) (regs : Vector Word 16) (zf sf : Bool), p.wf →
    image.length = p.memSize →
    ∃ s, State.launch p image regs zf sf = s ∧ s.pc = p.entry ∧ s.stat = .aok ∧ s.regs = regs ∧
      s.zf = zf ∧ s.sf = sf ∧ s.params = p ∧ (∀ a (h : a < image.length), s.mem.read a = image[a]) ∧ s.Inv

/-- R151 with log entries 2 to 4: the state after reset. The latch and the pc are the spec's; the register, flag
and memory values are the model's choice. -/
def Obligations.ResetValues : Prop :=
  State.reset.stat = .aok ∧ State.reset.pc = State.reset.params.entry ∧ (∀ r, State.reset.reg r = 0) ∧
    State.reset.zf = false ∧ State.reset.sf = false ∧ (∀ a, State.reset.mem.read a = 0) ∧
    State.reset.params.moveJumpExec = .fault

/-- R139: failures are precise with two named exceptions. After a step that ends with the latch set, only the latch
differs, except that call and pushq under `reference` leave the stack pointer decremented, and call also
`pc = valP`. Memory is never partly written. -/
def Obligations.FailuresArePrecise : Prop :=
  ∀ s t : State, s.stat = .aok → step s = .next t → t.stat ≠ .aok →
    t = { s with stat := t.stat } ∨
      s.params.stackFailMode = .reference ∧ t.mem = s.mem ∧ SameFlags s t ∧ t.params = s.params ∧
        t.reg 4 = s.reg 4 - 8 ∧ SameRegsBut 4 s t ∧
        ((∃ fn v rest, decode s.fetchBytes = .ok (.call fn v) rest ∧ t.pc = s.pc + 9) ∨
          ∃ fn rA ign rest, decode s.fetchBytes = .ok (.pushq fn rA ign) rest ∧ t.pc = s.pc)

/-- The spec's inference R136 from the instruction rules: what a latch value after a step says of the state before
it: which instruction ran, and what the recorded information is. -/
def Obligations.OutcomeCauses : Prop :=
  ∀ s t : State, s.stat = .aok → step s = .next t →
    match t.stat with
    | .aok => True
    | .hlt => s.pc.toNat < s.params.memSize ∧ (s.mem.read s.pc.toNat).toNat / 16 = 0
    | .errFetchOob p => p = s.pc ∧ s.params.memSize ≤ s.pc.toNat
    | .errTruncated p n =>
      p = s.pc ∧ n = tableLength ((s.mem.read s.pc.toNat).toNat / 16) ∧ s.params.memSize < s.pc.toNat + n
    | .errInvalid p b => p = s.pc ∧ b = s.mem.read s.pc.toNat ∧ IllegalByte b
    | .errMemOob a w => w = 8 ∧ s.params.memSize < a.toNat + 8 ∧
      ∃ i rest, decode s.fetchBytes = .ok i rest ∧
        match i with
        | .rmmovq _ _ b d | .mrmovq _ _ b d => a = s.reg b + d
        | .call _ _ | .pushq _ _ _ => a = s.reg 4 - 8
        | .ret _ | .popq _ _ _ => a = s.reg 4
        | _ => False
    | .errUnrecognized p => p = s.pc ∧
      ((s.mem.read s.pc.toNat).toNat / 16 = 7 ∧ s.params.moveJumpExec = .fault ∨
        (s.mem.read s.pc.toNat).toNat / 16 = 2 ∧
          (s.params.moveJumpExec = .fault ∨ 6 < (s.mem.read s.pc.toNat).toNat % 16))
    | .errDivZero p => p = s.pc ∧
      ∃ rA rB rest, s.reg rA = 0 ∧
        (decode s.fetchBytes = .ok (.divq rA rB) rest ∨ decode s.fetchBytes = .ok (.modq rA rB) rest)

/-- R134: the codes and the classes of the outcomes. -/
def Obligations.OutcomeCodes : Prop :=
  ∀ (p : Word) (n : Nat) (b : Byte),
    [Stat.aok, .hlt, .errFetchOob p, .errTruncated p n, .errInvalid p b, .errMemOob p n, .errUnrecognized p,
      .errDivZero p].map (fun e => (e.code, e.kind)) =
    [(0, .running), (1, .normalTermination), (2, .decodeError), (3, .decodeError), (4, .decodeError),
      (5, .executeError), (6, .executeError), (7, .executeError)]

/-- The spec's summary R25 of the instruction rules: an instruction changes no register outside its row of the table. -/
def Obligations.WritesOnlyItsRegisters : Prop :=
  ∀ (i : Instr) (s t : State), exec i s = .next t → ∀ q, q ∉ mayWrite i → t.reg q = s.reg q

/-- The spec's summary R25 of the instruction rules: an instruction reads no register outside its row of the table.
Another value in a register it neither reads nor writes gives the same next state but for that register. -/
def Obligations.ReadsOnlyItsRegisters : Prop :=
  ∀ (i : Instr) (s t : State) (q : Reg) (v : Word), q ∉ mayRead i → q ∉ mayWrite i →
    exec i s = .next t → exec i (s.setReg q v) = .next (t.setReg q v)

/-- R46 and the spec's inference in R41: an instruction changes no byte of memory outside the one quadword it stores. -/
def Obligations.StoresOnlyItsQuadword : Prop :=
  ∀ (i : Instr) (s t : State), exec i s = .next t →
    ∀ a : Nat, (∀ w, storeAddr i s = some w → a < w.toNat ∨ w.toNat + 8 ≤ a) →
      t.mem.read a = s.mem.read a

/-- R34, R12 to R15: no step changes a parameter, the size of memory among them. -/
def Obligations.StepKeepsParams : Prop :=
  ∀ s t : State, step s = .next t → t.params = s.params

/-- The spec's inference in R94: two flags that are not both set are never both set after a step. -/
def Obligations.FlagsStayExclusive : Prop :=
  ∀ s t : State, (s.zf && s.sf) = false → step s = .next t → (t.zf && t.sf) = false

/-- The interface's instruction word (log entry 5): where ten bytes fit at the pc, the next step from a state with
a word placed runs the instruction the decoder reads from that word. -/
def Obligations.PlacedWordRuns : Prop :=
  ∀ (s : State) (nbits w : Nat) (i : Instr), s.pc.toNat + 10 ≤ s.params.memSize →
    decodeTableWord nbits w = some i → step (s.withFetchWord nbits w) = exec i (s.withFetchWord nbits w)

end
end

