-- ==== Sys2Proof/Laws/Bytes.lean ====
section
/-! SUPPORT. The small lemmas of nibbles, registers and little-endian bytes. -/

namespace Sys2Proof

@[simp] theorem hiNibble_packByte (h l : Nibble) : hiNibble (packByte h l) = h := by
  revert h l; decide

@[simp] theorem loNibble_packByte (h l : Nibble) : loNibble (packByte h l) = l := by
  revert h l; decide

@[simp] theorem packByte_nibbles (b : Byte) : packByte (hiNibble b) (loNibble b) = b := by
  revert b; decide

@[simp] theorem nibbleReg_regNibble (r : Reg) : nibbleReg (regNibble r) = r := rfl

@[simp] theorem regNibble_nibbleReg (n : Nibble) : regNibble (nibbleReg n) = n := rfl

theorem hiNibble_toNat (b : Byte) : (hiNibble b).toNat = b.toNat / 16 := by
  revert b; decide

theorem loNibble_toNat (b : Byte) : (loNibble b).toNat = b.toNat % 16 := by
  revert b; decide

theorem packByte_eq_ofNat (h l : Nibble) : packByte h l = BitVec.ofNat 8 (16 * h.toNat + l.toNat) := by
  revert h l; decide

@[simp] theorem regNibble_toNat (r : Reg) : (regNibble r).toNat = r.val := rfl

@[simp] theorem nibbleReg_val (n : Nibble) : (nibbleReg n).val = n.toNat := rfl

theorem quadByte_eq_ofNat (v : Word) (i : Nat) : quadByte v i = BitVec.ofNat 8 (v.toNat / 2 ^ (8 * i)) := by
  apply BitVec.eq_of_toNat_eq
  simp [quadByte, Nat.shiftRight_eq_div_pow]

theorem leQuad_toNat (b0 b1 b2 b3 b4 b5 b6 b7 : Byte) :
    (leQuad b0 b1 b2 b3 b4 b5 b6 b7).toNat =
      b0.toNat + 2 ^ 8 * b1.toNat + 2 ^ 16 * b2.toNat + 2 ^ 24 * b3.toNat + 2 ^ 32 * b4.toNat
        + 2 ^ 40 * b5.toNat + 2 ^ 48 * b6.toNat + 2 ^ 56 * b7.toNat := by
  have app {n m : Nat} (x : BitVec n) (y : BitVec m) : (x ++ y).toNat = 2 ^ m * x.toNat + y.toNat := by
    rw [BitVec.toNat_append, Nat.shiftLeft_eq, Nat.mul_comm, Nat.two_pow_add_eq_or_of_lt y.isLt]
  simp only [leQuad, app]
  omega

/-- A quadword is put together again from its bytes (R45, R46). -/
@[simp] theorem leQuad_quadBytes (v : Word) :
    leQuad (quadByte v 0) (quadByte v 1) (quadByte v 2) (quadByte v 3)
      (quadByte v 4) (quadByte v 5) (quadByte v 6) (quadByte v 7) = v := by
  apply BitVec.eq_of_toNat_eq
  simp only [leQuad_toNat, quadByte_eq_ofNat, BitVec.toNat_ofNat]
  have := v.isLt
  omega

@[simp] theorem quadBytes_leQuad (b0 b1 b2 b3 b4 b5 b6 b7 : Byte) :
    quadBytes (leQuad b0 b1 b2 b3 b4 b5 b6 b7) = [b0, b1, b2, b3, b4, b5, b6, b7] := by
  have h0 := b0.isLt
  have h1 := b1.isLt
  have h2 := b2.isLt
  have h3 := b3.isLt
  have h4 := b4.isLt
  have h5 := b5.isLt
  have h6 := b6.isLt
  have h7 := b7.isLt
  simp only [quadBytes, List.cons.injEq, and_true]
  refine ⟨?_, ?_, ?_, ?_, ?_, ?_, ?_, ?_⟩ <;> apply BitVec.eq_of_toNat_eq <;>
    simp only [quadByte_eq_ofNat, BitVec.toNat_ofNat, leQuad_toNat] <;> omega

@[simp] theorem length_quadBytes (v : Word) : (quadBytes v).length = 8 := rfl

@[simp] theorem takeQuad_quadBytes (v : Word) (rest : List Byte) :
    takeQuad (quadBytes v ++ rest) = some (v, rest) := by
  simp [quadBytes, takeQuad]

/-- What `takeQuad` splits off, and when it cannot. -/
theorem takeQuad_cases (bs : List Byte) :
    (∃ v rest, takeQuad bs = some (v, rest) ∧ bs = quadBytes v ++ rest) ∨ takeQuad bs = none ∧ bs.length < 8 := by
  match bs with
  | b0 :: b1 :: b2 :: b3 :: b4 :: b5 :: b6 :: b7 :: rest =>
    exact .inl ⟨leQuad b0 b1 b2 b3 b4 b5 b6 b7, rest, rfl, by simp⟩
  | [] | [_] | [_, _] | [_, _, _] | [_, _, _, _] | [_, _, _, _, _] | [_, _, _, _, _, _]
  | [_, _, _, _, _, _, _] => exact .inr ⟨rfl, by simp⟩

end Sys2Proof
end

