-- ==== Sys2Proof/Laws/State.lean ====
section
/-! SUPPORT. One lemma per field of State per update, and the register laws of the updates. -/

namespace Sys2Proof.Machine

@[simp] theorem State.setReg_zf (s : State) (r : Reg) (v : Word) : (s.setReg r v).zf = s.zf := rfl
@[simp] theorem State.setReg_sf (s : State) (r : Reg) (v : Word) : (s.setReg r v).sf = s.sf := rfl
@[simp] theorem State.setReg_pc (s : State) (r : Reg) (v : Word) : (s.setReg r v).pc = s.pc := rfl
@[simp] theorem State.setReg_mem (s : State) (r : Reg) (v : Word) : (s.setReg r v).mem = s.mem := rfl
@[simp] theorem State.setReg_stat (s : State) (r : Reg) (v : Word) : (s.setReg r v).stat = s.stat := rfl
@[simp] theorem State.setReg_params (s : State) (r : Reg) (v : Word) : (s.setReg r v).params = s.params := rfl

@[simp] theorem State.setPc_regs (s : State) (v : Word) : (s.setPc v).regs = s.regs := rfl
@[simp] theorem State.setPc_zf (s : State) (v : Word) : (s.setPc v).zf = s.zf := rfl
@[simp] theorem State.setPc_sf (s : State) (v : Word) : (s.setPc v).sf = s.sf := rfl
@[simp] theorem State.setPc_pc (s : State) (v : Word) : (s.setPc v).pc = v := rfl
@[simp] theorem State.setPc_mem (s : State) (v : Word) : (s.setPc v).mem = s.mem := rfl
@[simp] theorem State.setPc_stat (s : State) (v : Word) : (s.setPc v).stat = s.stat := rfl
@[simp] theorem State.setPc_params (s : State) (v : Word) : (s.setPc v).params = s.params := rfl

@[simp] theorem State.setFlags_regs (s : State) (z f : Bool) : (s.setFlags z f).regs = s.regs := rfl
@[simp] theorem State.setFlags_zf (s : State) (z f : Bool) : (s.setFlags z f).zf = z := rfl
@[simp] theorem State.setFlags_sf (s : State) (z f : Bool) : (s.setFlags z f).sf = f := rfl
@[simp] theorem State.setFlags_pc (s : State) (z f : Bool) : (s.setFlags z f).pc = s.pc := rfl
@[simp] theorem State.setFlags_mem (s : State) (z f : Bool) : (s.setFlags z f).mem = s.mem := rfl
@[simp] theorem State.setFlags_stat (s : State) (z f : Bool) : (s.setFlags z f).stat = s.stat := rfl
@[simp] theorem State.setFlags_params (s : State) (z f : Bool) : (s.setFlags z f).params = s.params := rfl

@[simp] theorem State.setMem_regs (s : State) (m : Memory) : (s.setMem m).regs = s.regs := rfl
@[simp] theorem State.setMem_zf (s : State) (m : Memory) : (s.setMem m).zf = s.zf := rfl
@[simp] theorem State.setMem_sf (s : State) (m : Memory) : (s.setMem m).sf = s.sf := rfl
@[simp] theorem State.setMem_pc (s : State) (m : Memory) : (s.setMem m).pc = s.pc := rfl
@[simp] theorem State.setMem_mem (s : State) (m : Memory) : (s.setMem m).mem = m := rfl
@[simp] theorem State.setMem_stat (s : State) (m : Memory) : (s.setMem m).stat = s.stat := rfl
@[simp] theorem State.setMem_params (s : State) (m : Memory) : (s.setMem m).params = s.params := rfl

@[simp] theorem State.setStat_regs (s : State) (e : Stat) : (s.setStat e).regs = s.regs := rfl
@[simp] theorem State.setStat_zf (s : State) (e : Stat) : (s.setStat e).zf = s.zf := rfl
@[simp] theorem State.setStat_sf (s : State) (e : Stat) : (s.setStat e).sf = s.sf := rfl
@[simp] theorem State.setStat_pc (s : State) (e : Stat) : (s.setStat e).pc = s.pc := rfl
@[simp] theorem State.setStat_mem (s : State) (e : Stat) : (s.setStat e).mem = s.mem := rfl
@[simp] theorem State.setStat_stat (s : State) (e : Stat) : (s.setStat e).stat = e := rfl
@[simp] theorem State.setStat_params (s : State) (e : Stat) : (s.setStat e).params = s.params := rfl

@[simp] theorem State.advance_regs (s : State) (n : Nat) : (s.advance n).regs = s.regs := rfl
@[simp] theorem State.advance_zf (s : State) (n : Nat) : (s.advance n).zf = s.zf := rfl
@[simp] theorem State.advance_sf (s : State) (n : Nat) : (s.advance n).sf = s.sf := rfl
@[simp] theorem State.advance_pc (s : State) (n : Nat) : (s.advance n).pc = s.valP n := rfl
@[simp] theorem State.advance_mem (s : State) (n : Nat) : (s.advance n).mem = s.mem := rfl
@[simp] theorem State.advance_stat (s : State) (n : Nat) : (s.advance n).stat = s.stat := rfl
@[simp] theorem State.advance_params (s : State) (n : Nat) : (s.advance n).params = s.params := rfl

/-- A register reads as the last value written to it, and a write touches no other (R21). -/
@[simp] theorem State.reg_setReg (s : State) (r : Reg) (v : Word) (q : Reg) :
    (s.setReg r v).reg q = if q = r then v else s.reg q := by
  unfold State.setReg State.reg
  by_cases h : q = r
  · subst h; simp
  · have : r.val ≠ q.val := fun e => h (Fin.ext e.symm)
    simp [h, this]

@[simp] theorem State.reg_setPc (s : State) (v : Word) (q : Reg) : (s.setPc v).reg q = s.reg q := rfl
@[simp] theorem State.reg_setFlags (s : State) (z f : Bool) (q : Reg) : (s.setFlags z f).reg q = s.reg q := rfl
@[simp] theorem State.reg_setMem (s : State) (m : Memory) (q : Reg) : (s.setMem m).reg q = s.reg q := rfl
@[simp] theorem State.reg_setStat (s : State) (e : Stat) (q : Reg) : (s.setStat e).reg q = s.reg q := rfl
@[simp] theorem State.reg_advance (s : State) (n : Nat) (q : Reg) : (s.advance n).reg q = s.reg q := rfl

@[simp] theorem State.valP_setReg (s : State) (r : Reg) (v : Word) (n : Nat) :
    (s.setReg r v).valP n = s.valP n := rfl
@[simp] theorem State.valP_setFlags (s : State) (z f : Bool) (n : Nat) :
    (s.setFlags z f).valP n = s.valP n := rfl

end Sys2Proof.Machine
end

