-- ==== Sys2Proof/Laws/Ops.lean ====
section
/-! SUPPORT. One lemma per shared operation that says what it does, for callers to cite instead of unfolding it. -/

namespace Sys2Proof.Machine

theorem State.inBounds_iff (s : State) (a : Word) (n : Nat) :
    s.inBounds a n = true ↔ a.toNat + n ≤ s.params.memSize := by simp [State.inBounds]

theorem Memory.quad_toNat (m : Memory) (a : Nat) :
    (m.quad a).toNat =
      (m.read a).toNat + 2 ^ 8 * (m.read (a + 1)).toNat + 2 ^ 16 * (m.read (a + 2)).toNat
        + 2 ^ 24 * (m.read (a + 3)).toNat + 2 ^ 32 * (m.read (a + 4)).toNat
        + 2 ^ 40 * (m.read (a + 5)).toNat + 2 ^ 48 * (m.read (a + 6)).toNat
        + 2 ^ 56 * (m.read (a + 7)).toNat := leQuad_toNat ..

/-- A quadword depends on its eight bytes alone. -/
theorem Memory.quad_congr {m n : Memory} {a : Nat} (h : ∀ i < 8, n.read (a + i) = m.read (a + i)) :
    n.quad a = m.quad a := by
  have h0 : n.read a = m.read a := h 0 (by omega)
  simp [Memory.quad, h0, h 1, h 2, h 3, h 4, h 5, h 6, h 7]

/-- A stored quadword is read back whole. -/
@[simp] theorem Memory.quad_writeBytes (m : Memory) (a : Nat) (v : Word) :
    (m.writeBytes a (quadBytes v)).quad a = v := by
  have h (i : Nat) (hi : i < (quadBytes v).length) := Memory.read_writeBytes_inside (m := m) (a := a) hi
  have h0 := h 0 (by simp)
  rw [Nat.add_zero] at h0
  unfold Memory.quad
  rw [h0, h 1 (by simp), h 2 (by simp), h 3 (by simp), h 4 (by simp), h 5 (by simp), h 6 (by simp), h 7 (by simp)]
  simp [quadBytes]

/-- What a load answers. -/
theorem State.readQuad_cases (s : State) (a : Word) :
    a.toNat + 8 ≤ s.params.memSize ∧ s.readQuad a = some (s.mem.quad a.toNat) ∨
      ¬ a.toNat + 8 ≤ s.params.memSize ∧ s.readQuad a = none := by
  unfold State.readQuad
  by_cases h : a.toNat + 8 ≤ s.params.memSize
  · exact .inl ⟨h, by rw [if_pos ((s.inBounds_iff a 8).2 h)]⟩
  · exact .inr ⟨h, by rw [if_neg (mt (s.inBounds_iff a 8).1 h)]⟩

/-- What a store answers. -/
theorem State.writeQuad_cases (s : State) (a v : Word) :
    a.toNat + 8 ≤ s.params.memSize ∧
        s.writeQuad a v = some (s.setMem (s.mem.writeBytes a.toNat (quadBytes v))) ∨
      ¬ a.toNat + 8 ≤ s.params.memSize ∧ s.writeQuad a v = none := by
  unfold State.writeQuad
  by_cases h : a.toNat + 8 ≤ s.params.memSize
  · exact .inl ⟨h, by rw [if_pos ((s.inBounds_iff a 8).2 h)]⟩
  · exact .inr ⟨h, by rw [if_neg (mt (s.inBounds_iff a 8).1 h)]⟩

/-- Which registers a pop writes, and with what. -/
theorem State.reg_popInto (s : State) (rA : Reg) (v : Word) (q : Reg) :
    (s.popInto rA v).reg q =
      if rA = 4 then
        if q = 4 then
          if s.params.popSpResult = .loaded then v
          else if s.params.popSpResult = .loadedPlus8 then v + 8
          else s.reg 4 + 8
        else s.reg q
      else if q = 4 then s.reg 4 + 8 else if q = rA then v else s.reg q := by
  unfold State.popInto State.popSlot spIndex
  by_cases hA : rA = 4
  · rw [if_pos hA, if_pos hA]
    cases s.params.popSpResult <;> simp
  · rw [if_neg hA, if_neg hA]
    simp

/-- Everything of a pop's state but the registers. -/
theorem State.popInto_fields (s : State) (rA : Reg) (v : Word) :
    (s.popInto rA v).zf = s.zf ∧ (s.popInto rA v).sf = s.sf ∧ (s.popInto rA v).pc = s.pc ∧
      (s.popInto rA v).mem = s.mem ∧ (s.popInto rA v).stat = s.stat ∧ (s.popInto rA v).params = s.params := by
  unfold State.popInto
  split
  · split <;> exact ⟨rfl, rfl, rfl, rfl, rfl, rfl⟩
  · exact ⟨rfl, rfl, rfl, rfl, rfl, rfl⟩

end Sys2Proof.Machine
end

