-- ==== Sys2Proof/Laws/Exec.lean ====
section
/-! SUPPORT. What each shared meaning and each instruction can do, said once: every outcome is a next state, with
its condition and its state. -/

namespace Sys2Proof.Machine

/-- The two ends of an arithmetic/logic step. -/
theorem aluStep_cases (f : AluFun) (rA rB : Reg) (s : State) :
    aluDivZero f (s.reg rA) = true ∧ aluStep f rA rB s = .next (s.setStat (.errDivZero s.pc)) ∨
      aluDivZero f (s.reg rA) = false ∧ aluStep f rA rB s =
        .next (((s.setReg rB (aluResult f (s.reg rA) (s.reg rB))).setFlags
          (zeroFlag (aluResult f (s.reg rA) (s.reg rB)))
          (signFlag (aluResult f (s.reg rA) (s.reg rB)))).advance 2) := by
  unfold aluStep
  cases h : aluDivZero f (s.reg rA)
  · exact .inr ⟨rfl, rfl⟩
  · exact .inl ⟨rfl, rfl⟩

/-- The three ends of a register-move step. -/
theorem moveStep_cases (c : Cond) (rA rB : Reg) (s : State) :
    s.params.moveJumpExec = .fault ∧ moveStep c rA rB s = .next (s.setStat (.errUnrecognized s.pc)) ∨
      s.params.moveJumpExec = .y86 ∧
        (condHolds c s.zf s.sf = true ∧ moveStep c rA rB s = .next ((s.setReg rB (s.reg rA)).advance 10) ∨
          condHolds c s.zf s.sf = false ∧ moveStep c rA rB s = .next (s.advance 10)) := by
  unfold moveStep
  cases s.params.moveJumpExec
  · exact .inl ⟨rfl, rfl⟩
  · cases condHolds c s.zf s.sf
    · exact .inr ⟨rfl, .inr ⟨rfl, rfl⟩⟩
    · exact .inr ⟨rfl, .inl ⟨rfl, rfl⟩⟩

/-- The two ends of a jump step. -/
theorem jumpStep_cases (c : Cond) (v : Word) (s : State) :
    s.params.moveJumpExec = .fault ∧ jumpStep c v s = .next (s.setStat (.errUnrecognized s.pc)) ∨
      s.params.moveJumpExec = .y86 ∧
        jumpStep c v s = .next (s.setPc (if condHolds c s.zf s.sf then v else s.valP 9)) := by
  unfold jumpStep
  cases s.params.moveJumpExec
  · exact .inl ⟨rfl, rfl⟩
  · refine .inr ⟨rfl, ?_⟩
    cases condHolds c s.zf s.sf <;> rfl

/-- The three ends of the store that call and push share. -/
theorem pushQuad_cases (start cur : State) (v nextPc : Word) (h : cur.params = start.params) :
    start.pushSlot.toNat + 8 ≤ start.params.memSize ∧
        pushQuad start cur v nextPc =
          .next (((cur.setReg spIndex start.pushSlot).setMem
            (cur.mem.writeBytes start.pushSlot.toNat (quadBytes v))).setPc nextPc) ∨
      ¬ start.pushSlot.toNat + 8 ≤ start.params.memSize ∧
        (start.params.stackFailMode = .reference ∧ pushQuad start cur v nextPc =
            .next ((cur.setReg spIndex start.pushSlot).setStat (.errMemOob start.pushSlot 8)) ∨
          start.params.stackFailMode = .rollback ∧ pushQuad start cur v nextPc =
            .next (start.setStat (.errMemOob start.pushSlot 8))) := by
  rcases (cur.setReg spIndex start.pushSlot).writeQuad_cases start.pushSlot v with ⟨hb, hw⟩ | ⟨hb, hw⟩
  · rw [State.setReg_params, h] at hb
    refine .inl ⟨hb, ?_⟩
    simp only [pushQuad, hw]
    rfl
  · rw [State.setReg_params, h] at hb
    refine .inr ⟨hb, ?_⟩
    simp only [pushQuad, hw]
    cases start.params.stackFailMode
    · exact .inl ⟨rfl, rfl⟩
    · exact .inr ⟨rfl, rfl⟩

/-- The two ends of a memory-store. -/
theorem execRmmovq_cases (fn : Nibble) (rA rB : Reg) (d : Word) (s : State) :
    (s.effAddr rB d).toNat + 8 ≤ s.params.memSize ∧ execRmmovq fn rA rB d s =
        .next ((s.setMem (s.mem.writeBytes (s.effAddr rB d).toNat (quadBytes (s.reg rA)))).advance 10) ∨
      ¬ (s.effAddr rB d).toNat + 8 ≤ s.params.memSize ∧
        execRmmovq fn rA rB d s = .next (s.setStat (.errMemOob (s.effAddr rB d) 8)) := by
  rcases s.writeQuad_cases (s.effAddr rB d) (s.reg rA) with ⟨hb, hw⟩ | ⟨hb, hw⟩
  · exact .inl ⟨hb, by simp only [execRmmovq, hw]⟩
  · exact .inr ⟨hb, by simp only [execRmmovq, hw]; rfl⟩

/-- The two ends of a memory-load. -/
theorem execMrmovq_cases (fn : Nibble) (rA rB : Reg) (d : Word) (s : State) :
    (s.effAddr rB d).toNat + 8 ≤ s.params.memSize ∧ execMrmovq fn rA rB d s =
        .next ((s.setReg rA (s.mem.quad (s.effAddr rB d).toNat)).advance 10) ∨
      ¬ (s.effAddr rB d).toNat + 8 ≤ s.params.memSize ∧
        execMrmovq fn rA rB d s = .next (s.setStat (.errMemOob (s.effAddr rB d) 8)) := by
  rcases s.readQuad_cases (s.effAddr rB d) with ⟨hb, hw⟩ | ⟨hb, hw⟩
  · exact .inl ⟨hb, by simp only [execMrmovq, hw]⟩
  · exact .inr ⟨hb, by simp only [execMrmovq, hw]; rfl⟩

/-- The two ends of a return. -/
theorem execRet_cases (fn : Nibble) (s : State) :
    s.popSlot.toNat + 8 ≤ s.params.memSize ∧ execRet fn s =
        .next ((s.setReg spIndex (s.popSlot + 8)).setPc (s.mem.quad s.popSlot.toNat)) ∨
      ¬ s.popSlot.toNat + 8 ≤ s.params.memSize ∧ execRet fn s = .next (s.setStat (.errMemOob s.popSlot 8)) := by
  rcases s.readQuad_cases s.popSlot with ⟨hb, hw⟩ | ⟨hb, hw⟩
  · exact .inl ⟨hb, by simp only [execRet, hw]⟩
  · exact .inr ⟨hb, by simp only [execRet, hw]; rfl⟩

/-- The two ends of a pop. -/
theorem execPopq_cases (fn : Nibble) (rA : Reg) (ign : Nibble) (s : State) :
    s.popSlot.toNat + 8 ≤ s.params.memSize ∧ execPopq fn rA ign s =
        .next ((s.popInto rA (s.mem.quad s.popSlot.toNat)).advance 2) ∨
      ¬ s.popSlot.toNat + 8 ≤ s.params.memSize ∧
        execPopq fn rA ign s = .next (s.setStat (.errMemOob s.popSlot 8)) := by
  rcases s.readQuad_cases s.popSlot with ⟨hb, hw⟩ | ⟨hb, hw⟩
  · exact .inl ⟨hb, by simp only [execPopq, hw]⟩
  · exact .inr ⟨hb, by simp only [execPopq, hw]; rfl⟩

/-- What a step is, by its latch and its decoding. -/
theorem step_cases (s : State) :
    s.stat ≠ .aok ∧ step s = .fault (.stopped s.stat) ∨
      s.stat = .aok ∧
        ((∃ i rest, decode s.fetchBytes = .ok i rest ∧ step s = exec i s) ∨
          decode s.fetchBytes = .noByte ∧ step s = .next (s.setStat (.errFetchOob s.pc)) ∨
          ∃ n, decode s.fetchBytes = .truncated n ∧ step s = .next (s.setStat (.errTruncated s.pc n))) := by
  unfold step
  by_cases h : s.stat = .aok
  · refine .inr ⟨h, ?_⟩
    rw [if_pos h]
    cases hd : decode s.fetchBytes with
    | ok i rest => exact .inl ⟨i, rest, rfl, rfl⟩
    | noByte => exact .inr (.inl ⟨rfl, rfl⟩)
    | truncated n => exact .inr (.inr ⟨n, rfl, rfl⟩)
  · exact .inl ⟨h, by rw [if_neg h]⟩

end Sys2Proof.Machine
end

