-- ==== Sys2Proof/Laws/PerInstr.lean ====
section
/-! SUPPORT. One lemma per constructor of Instr: the encoding's length is the instruction's, and no instruction is
longer than format F10 (R62, R81). -/

namespace Sys2Proof.Laws.EncodeLength

/-- The bytes of `i` are as many as its length says, at least one and at most ten. -/
def Statement (i : Instr) : Prop := (encode i).length = i.length ∧ 1 ≤ i.length ∧ i.length ≤ maxInstrLength

theorem halt (fn : Nibble) : Statement (.halt fn) :=
  ⟨rfl, by simp [Instr.length, Instr.regByte, Instr.imm, maxInstrLength]⟩

theorem nop (fn : Nibble) : Statement (.nop fn) :=
  ⟨rfl, by simp [Instr.length, Instr.regByte, Instr.imm, maxInstrLength]⟩

theorem rrmovq (rA rB : Reg) (valC : Word) : Statement (.rrmovq rA rB valC) :=
  ⟨rfl, by simp [Instr.length, Instr.regByte, Instr.imm, maxInstrLength]⟩

theorem cmovle (rA rB : Reg) (valC : Word) : Statement (.cmovle rA rB valC) :=
  ⟨rfl, by simp [Instr.length, Instr.regByte, Instr.imm, maxInstrLength]⟩

theorem cmovl (rA rB : Reg) (valC : Word) : Statement (.cmovl rA rB valC) :=
  ⟨rfl, by simp [Instr.length, Instr.regByte, Instr.imm, maxInstrLength]⟩

theorem cmove (rA rB : Reg) (valC : Word) : Statement (.cmove rA rB valC) :=
  ⟨rfl, by simp [Instr.length, Instr.regByte, Instr.imm, maxInstrLength]⟩

theorem cmovne (rA rB : Reg) (valC : Word) : Statement (.cmovne rA rB valC) :=
  ⟨rfl, by simp [Instr.length, Instr.regByte, Instr.imm, maxInstrLength]⟩

theorem cmovge (rA rB : Reg) (valC : Word) : Statement (.cmovge rA rB valC) :=
  ⟨rfl, by simp [Instr.length, Instr.regByte, Instr.imm, maxInstrLength]⟩

theorem cmovg (rA rB : Reg) (valC : Word) : Statement (.cmovg rA rB valC) :=
  ⟨rfl, by simp [Instr.length, Instr.regByte, Instr.imm, maxInstrLength]⟩

theorem registerMoveOther (fn : Nibble) (rA rB : Reg) (valC : Word) : Statement (.registerMoveOther fn rA rB valC) :=
  ⟨rfl, by simp [Instr.length, Instr.regByte, Instr.imm, maxInstrLength]⟩

theorem irmovq (fn ign : Nibble) (rB : Reg) (valC : Word) : Statement (.irmovq fn ign rB valC) :=
  ⟨rfl, by simp [Instr.length, Instr.regByte, Instr.imm, maxInstrLength]⟩

theorem rmmovq (fn : Nibble) (rA rB : Reg) (valC : Word) : Statement (.rmmovq fn rA rB valC) :=
  ⟨rfl, by simp [Instr.length, Instr.regByte, Instr.imm, maxInstrLength]⟩

theorem mrmovq (fn : Nibble) (rA rB : Reg) (valC : Word) : Statement (.mrmovq fn rA rB valC) :=
  ⟨rfl, by simp [Instr.length, Instr.regByte, Instr.imm, maxInstrLength]⟩

theorem addq (rA rB : Reg) : Statement (.addq rA rB) :=
  ⟨rfl, by simp [Instr.length, Instr.regByte, Instr.imm, maxInstrLength]⟩

theorem subq (rA rB : Reg) : Statement (.subq rA rB) :=
  ⟨rfl, by simp [Instr.length, Instr.regByte, Instr.imm, maxInstrLength]⟩

theorem andq (rA rB : Reg) : Statement (.andq rA rB) :=
  ⟨rfl, by simp [Instr.length, Instr.regByte, Instr.imm, maxInstrLength]⟩

theorem xorq (rA rB : Reg) : Statement (.xorq rA rB) :=
  ⟨rfl, by simp [Instr.length, Instr.regByte, Instr.imm, maxInstrLength]⟩

theorem mulq (rA rB : Reg) : Statement (.mulq rA rB) :=
  ⟨rfl, by simp [Instr.length, Instr.regByte, Instr.imm, maxInstrLength]⟩

theorem divq (rA rB : Reg) : Statement (.divq rA rB) :=
  ⟨rfl, by simp [Instr.length, Instr.regByte, Instr.imm, maxInstrLength]⟩

theorem modq (rA rB : Reg) : Statement (.modq rA rB) :=
  ⟨rfl, by simp [Instr.length, Instr.regByte, Instr.imm, maxInstrLength]⟩

theorem illegalOpq (fn : Nibble) : Statement (.illegalOpq fn) :=
  ⟨rfl, by simp [Instr.length, Instr.regByte, Instr.imm, maxInstrLength]⟩

theorem jmp (valC : Word) : Statement (.jmp valC) :=
  ⟨rfl, by simp [Instr.length, Instr.regByte, Instr.imm, maxInstrLength]⟩

theorem jle (valC : Word) : Statement (.jle valC) :=
  ⟨rfl, by simp [Instr.length, Instr.regByte, Instr.imm, maxInstrLength]⟩

theorem jl (valC : Word) : Statement (.jl valC) :=
  ⟨rfl, by simp [Instr.length, Instr.regByte, Instr.imm, maxInstrLength]⟩

theorem je (valC : Word) : Statement (.je valC) :=
  ⟨rfl, by simp [Instr.length, Instr.regByte, Instr.imm, maxInstrLength]⟩

theorem jne (valC : Word) : Statement (.jne valC) :=
  ⟨rfl, by simp [Instr.length, Instr.regByte, Instr.imm, maxInstrLength]⟩

theorem jge (valC : Word) : Statement (.jge valC) :=
  ⟨rfl, by simp [Instr.length, Instr.regByte, Instr.imm, maxInstrLength]⟩

theorem jg (valC : Word) : Statement (.jg valC) :=
  ⟨rfl, by simp [Instr.length, Instr.regByte, Instr.imm, maxInstrLength]⟩

theorem illegalJxx (fn : Nibble) : Statement (.illegalJxx fn) :=
  ⟨rfl, by simp [Instr.length, Instr.regByte, Instr.imm, maxInstrLength]⟩

theorem call (fn : Nibble) (valC : Word) : Statement (.call fn valC) :=
  ⟨rfl, by simp [Instr.length, Instr.regByte, Instr.imm, maxInstrLength]⟩

theorem ret (fn : Nibble) : Statement (.ret fn) :=
  ⟨rfl, by simp [Instr.length, Instr.regByte, Instr.imm, maxInstrLength]⟩

theorem pushq (fn : Nibble) (rA : Reg) (ign : Nibble) : Statement (.pushq fn rA ign) :=
  ⟨rfl, by simp [Instr.length, Instr.regByte, Instr.imm, maxInstrLength]⟩

theorem popq (fn : Nibble) (rA : Reg) (ign : Nibble) : Statement (.popq fn rA ign) :=
  ⟨rfl, by simp [Instr.length, Instr.regByte, Instr.imm, maxInstrLength]⟩

theorem illegalFamily (icode fn : Nibble) : Statement (.illegalFamily icode fn) :=
  ⟨rfl, by simp [Instr.length, Instr.regByte, Instr.imm, maxInstrLength]⟩

end Sys2Proof.Laws.EncodeLength
end

