-- ==== Sys2Proof/Machine/Asm.lean ====
section
/-! DEFINITION. Register names and assembler syntax (R22, R83), from general knowledge (G3, G4). For reading: nothing of
the machine depends on it. -/

namespace Sys2Proof

/-- The assembler name of a register (R22); the spec writes `%r15` for 0xF. -/
def regName (r : Reg) : String :=
  match r.val with
  | 0 => "%rax"
  | 1 => "%rcx"
  | 2 => "%rdx"
  | 3 => "%rbx"
  | 4 => "%rsp"
  | 5 => "%rbp"
  | 6 => "%rsi"
  | 7 => "%rdi"
  | 8 => "%r8"
  | 9 => "%r9"
  | 10 => "%r10"
  | 11 => "%r11"
  | 12 => "%r12"
  | 13 => "%r13"
  | 14 => "%r14"
  | _ => "%r15"

/-- A number in decimal, read as signed (an immediate or a displacement, R83, R104). -/
def signedText (v : Word) : String :=
  if v.msb then "-" ++ Nat.repr (2 ^ 64 - v.toNat) else Nat.repr v.toNat

/-- `op rA, rB`. -/
def twoRegs (op : String) (a b : Reg) : String := op ++ " " ++ regName a ++ ", " ++ regName b

/-- `D(rB)`: base plus displacement. -/
def baseDisp (d : Word) (b : Reg) : String := signedText d ++ "(" ++ regName b ++ ")"

/-- The assembler form of an instruction (R83). The table's illegal rows and a register-move with `ifun` 7 to 0xF
have none. -/
def Instr.asm : Instr → Option String
  | .halt _ => some "halt"
  | .nop _ => some "nop"
  | .rrmovq a b _ => some (twoRegs "rrmovq" a b)
  | .cmovle a b _ => some (twoRegs "cmovle" a b)
  | .cmovl a b _ => some (twoRegs "cmovl" a b)
  | .cmove a b _ => some (twoRegs "cmove" a b)
  | .cmovne a b _ => some (twoRegs "cmovne" a b)
  | .cmovge a b _ => some (twoRegs "cmovge" a b)
  | .cmovg a b _ => some (twoRegs "cmovg" a b)
  | .irmovq _ _ b v => some ("irmovq $" ++ signedText v ++ ", " ++ regName b)
  | .rmmovq _ a b d => some ("rmmovq " ++ regName a ++ ", " ++ baseDisp d b)
  | .mrmovq _ a b d => some ("mrmovq " ++ baseDisp d b ++ ", " ++ regName a)
  | .addq a b => some (twoRegs "addq" a b)
  | .subq a b => some (twoRegs "subq" a b)
  | .andq a b => some (twoRegs "andq" a b)
  | .xorq a b => some (twoRegs "xorq" a b)
  | .mulq a b => some (twoRegs "mulq" a b)
  | .divq a b => some (twoRegs "divq" a b)
  | .modq a b => some (twoRegs "modq" a b)
  | .jmp v => some ("jmp " ++ Nat.repr v.toNat)
  | .jle v => some ("jle " ++ Nat.repr v.toNat)
  | .jl v => some ("jl " ++ Nat.repr v.toNat)
  | .je v => some ("je " ++ Nat.repr v.toNat)
  | .jne v => some ("jne " ++ Nat.repr v.toNat)
  | .jge v => some ("jge " ++ Nat.repr v.toNat)
  | .jg v => some ("jg " ++ Nat.repr v.toNat)
  | .call _ v => some ("call " ++ Nat.repr v.toNat)
  | .ret _ => some "ret"
  | .pushq _ a _ => some ("pushq " ++ regName a)
  | .popq _ a _ => some ("popq " ++ regName a)
  | .registerMoveOther _ _ _ _ | .illegalOpq _ | .illegalJxx _ | .illegalFamily _ _ => none

end Sys2Proof
end

