-- ==== Sys2Proof/Tests/Slice0.lean ====
section
/-! SUPPORT. Tests. Expected results are the spec's: 30_encoding.md for the words, 95_test_vectors.md for the steps
(the vector's number stands in each comment). The witnesses show that the hypotheses of each statement can be met. -/

namespace Sys2Proof.Tests

open Sys2Proof.Machine Sys2Proof.Claims

/-! ## WellFormed refuses ill-formed terms -/

theorem test_wf_refuses_move_code_0 : Instr.wellFormed (.registerMoveOther 6 0 0 0) = false := by decide
theorem test_wf_refuses_opq_code_6 : Instr.wellFormed (.illegalOpq 6) = false := by decide
theorem test_wf_refuses_jump_code_0 : Instr.wellFormed (.illegalJxx 0) = false := by decide
theorem test_wf_refuses_family_B : Instr.wellFormed (.illegalFamily 0xB 0) = false := by decide

/-! ## Decoding: a word of every constructor, written out from R61 to R70 -/

theorem test_decode_f1 :
    decode [0x05] = .ok (.halt 5) [] ∧ decode [0x10, 0x90] = .ok (.nop 0) [0x90] ∧
    decode [0x9F] = .ok (.ret 0xF) [] := by decide

theorem test_decode_register_move :
    decode [0x20, 0x03, 1, 2, 3, 4, 5, 6, 7, 8] = .ok (.rrmovq 0 3 0x0807060504030201) [] ∧
    decode [0x21, 0x12, 0, 0, 0, 0, 0, 0, 0, 0] = .ok (.cmovle 1 2 0) [] ∧
    decode [0x22, 0x12, 0, 0, 0, 0, 0, 0, 0, 0] = .ok (.cmovl 1 2 0) [] ∧
    decode [0x23, 0x12, 0, 0, 0, 0, 0, 0, 0, 0] = .ok (.cmove 1 2 0) [] ∧
    decode [0x24, 0x12, 0, 0, 0, 0, 0, 0, 0, 0] = .ok (.cmovne 1 2 0) [] ∧
    decode [0x25, 0x12, 0, 0, 0, 0, 0, 0, 0, 0] = .ok (.cmovge 1 2 0) [] ∧
    decode [0x26, 0xF0, 0, 0, 0, 0, 0, 0, 0, 0] = .ok (.cmovg 15 0 0) [] ∧
    decode [0x27, 0x12, 0, 0, 0, 0, 0, 0, 0, 0] = .ok (.registerMoveOther 7 1 2 0) [] ∧
    decode [0x2F, 0x12, 0, 0, 0, 0, 0, 0, 0, 0] = .ok (.registerMoveOther 0xF 1 2 0) [] := by decide

theorem test_decode_f10 :
    decode [0x30, 0x53, 0x88, 0x77, 0x66, 0x55, 0x44, 0x33, 0x22, 0x11]
      = .ok (.irmovq 0 5 3 0x1122334455667788) [] ∧
    decode [0x41, 0x32, 0xF8, 0xFF, 0xFF, 0xFF, 0xFF, 0xFF, 0xFF, 0xFF]
      = .ok (.rmmovq 1 3 2 0xFFFFFFFFFFFFFFF8) [] ∧
    decode [0x50, 0x12, 8, 0, 0, 0, 0, 0, 0, 0] = .ok (.mrmovq 0 1 2 8) [] := by decide

theorem test_decode_opq :
    decode [0x60, 0x03] = .ok (.addq 0 3) [] ∧ decode [0x61, 0xF0] = .ok (.subq 15 0) [] ∧
    decode [0x62, 0x03] = .ok (.andq 0 3) [] ∧ decode [0x63, 0x33] = .ok (.xorq 3 3) [] ∧
    decode [0x64, 0x03] = .ok (.mulq 0 3) [] ∧ decode [0x65, 0x10] = .ok (.divq 1 0) [] ∧
    decode [0x66, 0x03] = .ok (.modq 0 3) [] ∧ decode [0x67] = .ok (.illegalOpq 7) [] ∧
    decode [0x6F, 1] = .ok (.illegalOpq 0xF) [1] := by decide

theorem test_decode_jump :
    decode [0x70, 0, 1, 0, 0, 0, 0, 0, 0] = .ok (.jmp 0x100) [] ∧
    decode [0x71, 0, 1, 0, 0, 0, 0, 0, 0] = .ok (.jle 0x100) [] ∧
    decode [0x72, 0, 1, 0, 0, 0, 0, 0, 0] = .ok (.jl 0x100) [] ∧
    decode [0x73, 0, 1, 0, 0, 0, 0, 0, 0] = .ok (.je 0x100) [] ∧
    decode [0x74, 0x1E, 0, 0, 0, 0, 0, 0, 0] = .ok (.jne 0x1E) [] ∧
    decode [0x75, 0, 1, 0, 0, 0, 0, 0, 0] = .ok (.jge 0x100) [] ∧
    decode [0x76, 0, 1, 0, 0, 0, 0, 0, 0] = .ok (.jg 0x100) [] ∧
    decode [0x77] = .ok (.illegalJxx 7) [] ∧ decode [0x7F] = .ok (.illegalJxx 0xF) [] := by decide

theorem test_decode_stack :
    decode [0x80, 0x40, 0, 0, 0, 0, 0, 0, 0] = .ok (.call 0 0x40) [] ∧
    decode [0xA0, 0x3C] = .ok (.pushq 0 3 0xC) [] ∧ decode [0xB0, 0x7A] = .ok (.popq 0 7 0xA) [] := by decide

theorem test_decode_illegal_family :
    decode [0xC0] = .ok (.illegalFamily 0xC 0) [] ∧ decode [0xFF] = .ok (.illegalFamily 0xF 0xF) [] := by decide

theorem test_decode_truncated :
    decode [] = .noByte ∧ decode [0x60] = .truncated 2 ∧ decode [0x80, 1, 2, 3, 4, 5, 6, 7] = .truncated 9 ∧
    decode [0x20, 0x03, 1, 2, 3, 4, 5, 6, 7] = .truncated 10 := by decide

theorem test_table_words :
    decodeTableWord 8 0x67 = some (.illegalOpq 7) ∧ decodeTableWord 16 0x0360 = some (.addq 0 3) ∧
    decodeTableWord 80 0x00000000000000050330 = some (.irmovq 0 0 3 5) ∧
    decodeTableWord 8 0x80 = some (.call 0 0) := by decide

/-! ## Assembler syntax (R83) -/

theorem test_asm_store : Instr.asm (.rmmovq 0 3 2 0xFFFFFFFFFFFFFFF8) = some "rmmovq %rbx, -8(%rdx)" := by decide
theorem test_asm_immediate : Instr.asm (.irmovq 0 0xF 4 512) = some "irmovq $512, %rsp" := by decide

/-! ## One step on a small state -/

/-- The parameters 95_test_vectors.md assumes unless a vector says otherwise, with its `MEM_SIZE = 0x400`. -/
def vectorParams : Params where
  memSize := 0x400
  entry := 0x100
  stackFailMode := .reference
  pushSpValue := .old
  popSpResult := .loaded
  moveJumpExec := .fault

def y86Params : Params := { vectorParams with moveJumpExec := .y86 }

/-- A launch at 0x100 with some code there, some bytes elsewhere and some registers set. -/
def start (p : Params) (code : List Byte) (regs : List (Reg × Word)) (zf sf : Bool := false)
    (dataAt : Nat := 0) (data : List Byte := []) : State :=
  let s : State :=
    { State.reset with
      params := p, pc := 0x100, zf := zf, sf := sf,
      mem := Memory.writeBytes (Memory.writeBytes [] dataAt data) 0x100 code }
  regs.foldl (fun s r => s.setReg r.1 r.2) s

/-- What a test looks at after one step. -/
def after {α : Type} (s : State) (look : State → α) : Option α := (nextState (step s)).map look

/-- An ALU vector: `op %rax, %rbx` with `a` and `b`, both flags set before. -/
def aluVector (op : Byte) (b a : Word) : Option (Word × Bool × Bool × Word × Stat) :=
  after (start vectorParams [op, 0x03] [(0, a), (3, b)] true true) fun t => (t.reg 3, t.zf, t.sf, t.pc, t.stat)

/-- A2, A3. -/
theorem test_add_wraps : aluVector 0x60 0xFFFFFFFFFFFFFFFF 1 = some (0, true, false, 0x102, .aok) := by decide
theorem test_add_sign : aluVector 0x60 0x7FFFFFFFFFFFFFFF 1 = some (0x8000000000000000, false, true, 0x102, .aok) := by
  decide
/-- A5, A7. -/
theorem test_sub_order : aluVector 0x61 3 5 = some (0xFFFFFFFFFFFFFFFE, false, true, 0x102, .aok) := by decide
theorem test_sub_overflow : aluVector 0x61 0x8000000000000000 1 = some (0x7FFFFFFFFFFFFFFF, false, false, 0x102, .aok) := by
  decide
/-- A8, A9. -/
theorem test_and : aluVector 0x62 0xF0F0 0x0FF0 = some (0x00F0, false, false, 0x102, .aok) := by decide
theorem test_and_sign :
    aluVector 0x62 0x8000000000000000 0xFFFFFFFFFFFFFFFF = some (0x8000000000000000, false, true, 0x102, .aok) := by
  decide
/-- A11, A12. -/
theorem test_xor : aluVector 0x63 5 3 = some (6, false, false, 0x102, .aok) := by decide
theorem test_xor_zero : aluVector 0x63 5 5 = some (0, true, false, 0x102, .aok) := by decide
/-- A15, A16. -/
theorem test_mul_low_half : aluVector 0x64 0x100000000 0x100000000 = some (0, true, false, 0x102, .aok) := by decide
theorem test_mul_sign : aluVector 0x64 0xFFFFFFFFFFFFFFFF 2 = some (0xFFFFFFFFFFFFFFFE, false, true, 0x102, .aok) := by
  decide
/-- A30, A23. -/
theorem test_div_unsigned : aluVector 0x65 0xFFFFFFFFFFFFFFF9 2 = some (0x7FFFFFFFFFFFFFFC, false, false, 0x102, .aok) := by
  decide
theorem test_div_zero : aluVector 0x65 7 0 = some (7, true, true, 0x100, .errDivZero 0x100) := by decide
/-- A28, A27. -/
theorem test_mod_sign :
    aluVector 0x66 0xFFFFFFFFFFFFFFF9 0xFFFFFFFFFFFFFFFE = some (0xFFFFFFFFFFFFFFF9, false, true, 0x102, .aok) := by
  decide
theorem test_mod_zero : aluVector 0x66 7 0 = some (7, true, true, 0x100, .errDivZero 0x100) := by decide
/-- D4, D7 and J3: the illegal bytes, with byte 0 recorded. -/
theorem test_illegal_opq :
    after (start vectorParams [0x6F] []) (fun t => (t.pc, t.stat)) = some (0x100, .errInvalid 0x100 0x6F) := by decide
theorem test_illegal_jump :
    after (start y86Params [0x78, 0, 3] []) (fun t => (t.pc, t.stat)) = some (0x100, .errInvalid 0x100 0x78) := by
  decide
theorem test_illegal_family :
    after (start vectorParams [0xC0] []) (fun t => (t.pc, t.stat)) = some (0x100, .errInvalid 0x100 0xC0) := by decide
/-- S1, S2. -/
theorem test_nop : after (start vectorParams [0x10] []) (fun t => (t.pc, t.stat)) = some (0x101, .aok) := by decide
theorem test_halt : after (start vectorParams [0x0F] []) (fun t => (t.pc, t.stat)) = some (0x100, .hlt) := by decide
/-- R87: no step after a halt. -/
theorem test_no_step_after_halt :
    nextState (step ((start vectorParams [0x10] []).setStat .hlt)) = none := by decide
/-- S3, S4. -/
theorem test_irmovq_all_bits :
    after (start vectorParams [0x30, 0xF3, 0xFF, 0xFF, 0xFF, 0xFF, 0xFF, 0xFF, 0xFF, 0xFF] [])
      (fun t => (t.reg 3, t.pc)) = some (0xFFFFFFFFFFFFFFFF, 0x10A) := by decide
theorem test_irmovq_r15 :
    after (start vectorParams [0x30, 0x0F, 7, 0, 0, 0, 0, 0, 0, 0] [])
      (fun t => (t.reg 15, t.reg 0)) = some (7, 0) := by decide
/-- S5, S6. -/
theorem test_rmmovq_last_quadword :
    after (start vectorParams [0x40, 0x03, 0xF8, 3, 0, 0, 0, 0, 0, 0] [(0, 0x0102030405060708)])
      (fun t => (t.mem.readBytes 0x3F8 8, t.pc, t.stat)) = some ([8, 7, 6, 5, 4, 3, 2, 1], 0x10A, .aok) := by decide
theorem test_rmmovq_out_of_bounds :
    after (start vectorParams [0x40, 0x03, 0xF9, 3, 0, 0, 0, 0, 0, 0] [(0, 1)])
      (fun t => (t.mem.readBytes 0x3F9 7, t.pc, t.stat)) =
        some ([0, 0, 0, 0, 0, 0, 0], 0x100, .errMemOob 0x3F9 8) := by decide
/-- S8, S9. -/
theorem test_mrmovq_wrapped_address :
    after (start vectorParams [0x50, 0x03, 0xF8, 0xFF, 0xFF, 0xFF, 0xFF, 0xFF, 0xFF, 0xFF] [(3, 16)] false false
      8 [0xCD, 0xAB]) (fun t => (t.reg 0, t.pc)) = some (0xABCD, 0x10A) := by decide
theorem test_mrmovq_same_register :
    after (start vectorParams [0x50, 0x33, 8, 0, 0, 0, 0, 0, 0, 0] [(3, 0x200)] false false 0x208 [0x77])
      (fun t => (t.reg 3, t.pc)) = some (0x77, 0x10A) := by decide
/-- K1 to K5. -/
theorem test_pushq :
    after (start vectorParams [0xA0, 0x0F] [(0, 42), (4, 1000)])
      (fun t => (t.reg 4, t.mem.readBytes 992 8, t.pc)) = some (992, [42, 0, 0, 0, 0, 0, 0, 0], 0x102) := by decide
theorem test_pushq_fails :
    after (start vectorParams [0xA0, 0x0F] [(0, 42), (4, 4)]) (fun t => (t.reg 4, t.pc, t.stat)) =
        some (0xFFFFFFFFFFFFFFFC, 0x100, .errMemOob 0xFFFFFFFFFFFFFFFC 8) ∧
      after (start { vectorParams with stackFailMode := .rollback } [0xA0, 0x0F] [(0, 42), (4, 4)])
        (fun t => (t.reg 4, t.pc, t.stat)) = some (4, 0x100, .errMemOob 0xFFFFFFFFFFFFFFFC 8) := by decide
theorem test_pushq_rsp :
    after (start vectorParams [0xA0, 0x4F] [(4, 1000)]) (fun t => t.mem.readBytes 992 2) = some [0xE8, 3] ∧
      after (start { vectorParams with pushSpValue := .decremented } [0xA0, 0x4F] [(4, 1000)])
        (fun t => t.mem.readBytes 992 2) = some [0xE0, 3] := by decide
/-- K6, K8. -/
theorem test_popq :
    after (start vectorParams [0xB0, 0x0F] [(4, 992)] false false 992 [42])
      (fun t => (t.reg 0, t.reg 4, t.pc)) = some (42, 1000, 0x102) := by decide
theorem test_popq_rsp :
    after (start vectorParams [0xB0, 0x4F] [(4, 1000)] false false 1000 [0, 5]) (fun t => t.reg 4) = some 0x500 ∧
      after (start { vectorParams with popSpResult := .loadedPlus8 } [0xB0, 0x4F] [(4, 1000)] false false 1000 [0, 5])
        (fun t => t.reg 4) = some 0x508 ∧
      after (start { vectorParams with popSpResult := .oldPlus8 } [0xB0, 0x4F] [(4, 1000)] false false 1000 [0, 5])
        (fun t => t.reg 4) = some 0x3F0 := by decide
/-- K9 to K11. -/
theorem test_call :
    after (start vectorParams [0x80, 0, 2, 0, 0, 0, 0, 0, 0] [(4, 1000)])
      (fun t => (t.reg 4, t.mem.readBytes 992 3, t.pc)) = some (992, [9, 1, 0], 0x200) := by decide
theorem test_call_fails :
    after (start vectorParams [0x80, 0, 2, 0, 0, 0, 0, 0, 0] []) (fun t => (t.reg 4, t.pc, t.stat)) =
        some (0xFFFFFFFFFFFFFFF8, 0x109, .errMemOob 0xFFFFFFFFFFFFFFF8 8) ∧
      after (start { vectorParams with stackFailMode := .rollback } [0x80, 0, 2, 0, 0, 0, 0, 0, 0] [])
        (fun t => (t.reg 4, t.pc, t.stat)) = some (0, 0x100, .errMemOob 0xFFFFFFFFFFFFFFF8 8) := by decide
/-- K12, K13. -/
theorem test_ret :
    after (start vectorParams [0x90] [(4, 992)] false false 992 [9, 1]) (fun t => (t.pc, t.reg 4)) =
      some (0x109, 1000) := by decide
theorem test_ret_fails :
    after (start vectorParams [0x90] [(4, 0x3FC)]) (fun t => (t.pc, t.reg 4, t.stat)) =
      some (0x100, 0x3FC, .errMemOob 0x3FC 8) := by decide
/-- J1, J2: the decided value `fault`. -/
theorem test_move_under_fault :
    after (start vectorParams [0x20, 0x03, 0, 0, 0, 0, 0, 0, 0, 0] [(0, 7), (3, 1)])
      (fun t => (t.reg 3, t.pc, t.stat)) = some (1, 0x100, .errUnrecognized 0x100) := by decide
theorem test_jump_under_fault :
    after (start vectorParams [0x70, 0, 3, 0, 0, 0, 0, 0, 0] []) (fun t => (t.pc, t.stat)) =
      some (0x100, .errUnrecognized 0x100) := by decide
/-- J9. -/
theorem test_move_code_9 :
    after (start y86Params [0x29, 0x03, 0, 0, 0, 0, 0, 0, 0, 0] []) (fun t => (t.pc, t.stat)) =
      some (0x100, .errUnrecognized 0x100) := by decide

/-- Rows J4 to J7: which of the seven conditions hold, by `ZF` and `SF`. -/
def conditionRow (zf sf : Bool) : List Bool :=
  [Cond.always, .le, .l, .e, .ne, .ge, .g].map fun c => condHolds c zf sf

theorem test_conditions :
    conditionRow false false = [true, false, false, false, true, true, true] ∧
    conditionRow true false = [true, true, false, true, false, true, false] ∧
    conditionRow false true = [true, true, true, false, true, false, false] ∧
    conditionRow true true = [true, true, true, true, false, false, false] := by decide

/-- Row J5 (`ZF = 1`, `SF = 0`) run for the seven jumps: taken or not. -/
theorem test_jumps_row_J5 :
    [0x70, 0x71, 0x72, 0x73, 0x74, 0x75, 0x76].map (fun op => after
      (start y86Params [op, 0, 3, 0, 0, 0, 0, 0, 0] [] true false) (fun t => t.pc)) =
    [some 0x300, some 0x300, some 0x109, some 0x300, some 0x109, some 0x300, some 0x109] := by decide
/-- Row J6 (`ZF = 0`, `SF = 1`) run for the seven moves: moved or not. -/
theorem test_moves_row_J6 :
    [0x20, 0x21, 0x22, 0x23, 0x24, 0x25, 0x26].map (fun op => after
      (start y86Params [op, 0x03, 0, 0, 0, 0, 0, 0, 0, 0] [(0, 7), (3, 1)] false true) (fun t => (t.reg 3, t.pc))) =
    [some (7, 0x10A), some (7, 0x10A), some (7, 0x10A), some (1, 0x10A), some (7, 0x10A), some (1, 0x10A),
      some (1, 0x10A)] := by decide

/-- D2, D3, D4: the order of the decode checks at the end of memory. -/
theorem test_decode_errors_at_the_end :
    after { start vectorParams [] [] with pc := 0x400 } (fun t => t.stat) = some (.errFetchOob 0x400) ∧
    after { start vectorParams [] [] false false 0x3FF [0x60] with pc := 0x3FF } (fun t => t.stat)
      = some (.errTruncated 0x3FF 2) ∧
    after { start vectorParams [] [] false false 0x3FF [0x67] with pc := 0x3FF } (fun t => t.stat)
      = some (.errInvalid 0x3FF 0x67) := by decide

/-- M1, M4, M11: little-endian, no alignment. -/
theorem test_quadword_bytes :
    (Memory.writeBytes [] 0 (quadBytes 0x0102030405060708)).readBytes 0 8 = [8, 7, 6, 5, 4, 3, 2, 1] ∧
    (Memory.writeBytes [] 0 (quadBytes 0x0102030405060708)).quad 1 = 0x0001020304050607 := by decide

/-- The canonical form: writing the filler removes the cell. -/
theorem test_memory_canonical :
    Memory.write (Memory.write (Memory.write [] 5 1) 3 2) 5 0 = [(3, 2)] := by decide

/-- The interface: the first step after reset runs the word placed at the pc. -/
theorem test_word_after_reset :
    after (State.reset.withFetchWord 80 0x00000000000000050330) (fun t => (t.reg 3, t.pc)) = some (5, 10) := by decide

/-! ## Witnesses: the hypotheses of each statement hold together somewhere -/

/-- A next state with a property, from a check that evaluates. -/
theorem next_of {r : Result} (P : State → Bool) (h : (nextState r).any P = true) : ∃ t, r = .next t ∧ P t = true := by
  cases r with
  | next t => exact ⟨t, rfl, h⟩
  | fault _ => cases h
  | refused _ => cases h

/-- The next state of a check that evaluates, as a closed term. -/
def nextOf (r : Result) : State := (nextState r).getD State.reset

theorem eq_next_nextOf {r : Result} (h : (nextState r).isSome = true) : r = .next (nextOf r) := by
  cases r with
  | next t => rfl
  | fault _ => cases h
  | refused _ => cases h

theorem witness_DecodeOfEncode :
    Instr.wellFormed (.illegalOpq 7) = true ∧ Instr.wellFormed (.registerMoveOther 0xF 0 15 1) = true ∧
      Instr.wellFormed (.illegalFamily 0xC 0) = true := by decide

theorem witness_EncodeOfDecode : ∃ bs i rest, decode bs = .ok i rest :=
  ⟨[0x60, 0x03, 0x10], .addq 0 3, [0x10], by decide⟩

theorem witness_LengthByHighNibble :
    ∃ (i : Instr) (b0 : Byte) (bs : List Byte),
      i.wellFormed = true ∧ encode i = b0 :: bs ∧ ¬ IllegalByte b0 :=
  ⟨.modq 0 3, 0x66, [0x03], by decide, by decide, by unfold IllegalByte; decide⟩

theorem witness_StepRunsTheDecodedInstruction :
    ∃ (s : State) (i : Instr) (rest : List Byte), s.stat = .aok ∧ decode s.fetchBytes = .ok i rest :=
  ⟨start vectorParams [0x60, 0x03] [], .addq 0 3, List.replicate 8 0, by decide, by decide⟩

theorem witness_StepRunsTheInstructionInMemory :
    ∃ (s : State) (i : Instr), s.stat = .aok ∧ i.wellFormed = true ∧ InstrAtPc s i :=
  ⟨{ start vectorParams [] [] false false 0x3FE [0x60, 0x03] with pc := 0x3FE }, .addq 0 3, by decide, by decide,
    by unfold InstrAtPc; decide⟩

theorem witness_FinalStatesAreStuck : ∃ s : State, s.final := ⟨State.reset.setStat .hlt, by decide⟩

theorem witness_StepIsTheCycle : ∃ s : State, s.stat = .aok := ⟨State.reset, rfl⟩

theorem witness_FetchOutOfBounds : ∃ s : State, s.stat = .aok ∧ s.params.memSize ≤ s.pc.toNat :=
  ⟨{ start vectorParams [] [] with pc := 0x400 }, by decide, by decide⟩

/-- The lowest and the highest illegal byte of each range. -/
theorem witness_IllegalByteIsInvalid :
    ∀ b ∈ [(0x67 : Byte), 0x6F, 0x77, 0x7F, 0xC0, 0xFF], ∃ s : State,
      s.stat = .aok ∧ s.pc.toNat < s.params.memSize ∧ s.mem.read s.pc.toNat = b ∧ IllegalByte b := by
  intro b hb
  refine ⟨start vectorParams [b] [], ?_⟩
  unfold IllegalByte
  simp only [List.mem_cons, List.not_mem_nil, or_false] at hb
  obtain rfl | rfl | rfl | rfl | rfl | rfl := hb <;> decide

/-- An instruction of length 10 one byte too long for memory, and one of length 2. -/
theorem witness_TruncatedInstruction :
    ∀ b ∈ [((0x66 : Byte), (0x3FF : Word)), (0x5F, 0x3F7), (0x76, 0x3F8)], ∃ s : State,
      s.stat = .aok ∧ s.pc.toNat < s.params.memSize ∧ s.mem.read s.pc.toNat = b.1 ∧ ¬ IllegalByte b.1 ∧
        s.params.memSize < s.pc.toNat + tableLength (b.1.toNat / 16) := by
  intro b hb
  refine ⟨{ start vectorParams [] [] false false b.2.toNat [b.1] with pc := b.2 }, ?_⟩
  unfold IllegalByte
  simp only [List.mem_cons, List.not_mem_nil, or_false] at hb
  obtain rfl | rfl | rfl := hb <;> decide

/-- The last place an instruction of length 10 fits. -/
theorem witness_DecodedFields :
    ∃ (s : State) (b0 b1 : Byte), s.mem.read s.pc.toNat = b0 ∧ s.mem.read (s.pc.toNat + 1) = b1 ∧
      ¬ IllegalByte b0 ∧ s.pc.toNat + tableLength (b0.toNat / 16) ≤ s.params.memSize :=
  ⟨{ start vectorParams [] [] false false 0x3F6 [0x5F, 0x12] with pc := 0x3F6 }, 0x5F, 0x12, by decide, by decide,
    by unfold IllegalByte; decide, by decide⟩

/-- A unit handed another unit's family, and halt, which is nobody's. -/
theorem witness_UnitRejectsOtherFamilies :
    dispatchUnit 0x8 ≠ some .alu ∧ ∀ u, dispatchUnit 0x0 ≠ some u := by
  refine ⟨by decide, fun u => ?_⟩
  cases u <;> decide

theorem witness_Divq_and_Modq :
    (start vectorParams [] [(0, 1)]).reg 0 ≠ 0 ∧ (start vectorParams [] []).reg 0 = 0 := by decide

theorem witness_QuotientAndRemainder :
    ∃ (rA rB : Reg) (s t u : State), s.reg rA ≠ 0 ∧ exec (.divq rA rB) s = .next t ∧ exec (.modq rA rB) s = .next u := by
  obtain ⟨t, ht, -⟩ := next_of (r := exec (.divq 0 3) (start vectorParams [] [(0, 5), (3, 42)])) (fun _ => true) (by decide)
  obtain ⟨u, hu, -⟩ := next_of (r := exec (.modq 0 3) (start vectorParams [] [(0, 5), (3, 42)])) (fun _ => true) (by decide)
  exact ⟨0, 3, _, t, u, by decide, ht, hu⟩

theorem witness_OnlyOpqWritesFlags :
    ∃ (i : Instr) (s t : State), exec i s = .next t ∧ ¬ SameFlags s t := by
  obtain ⟨t, ht, hz⟩ := next_of (r := exec (.xorq 0 0) State.reset) (fun t => t.zf) (by decide)
  exact ⟨_, _, t, ht, fun h => absurd (h.1.symm.trans hz) (by decide)⟩

/-- The codes 7 and 0xF of the two ranges, and the families 0xC and 0xF. -/
theorem witness_illegal_codes :
    7 ≤ (7 : Nibble).toNat ∧ 7 ≤ (0xF : Nibble).toNat ∧ 0xC ≤ (0xC : Nibble).toNat ∧ 0xC ≤ (0xF : Nibble).toNat := by
  decide

/-- A halt byte that is the last byte of memory. -/
theorem witness_HaltRule_step :
    ∃ s : State, s.stat = .aok ∧ s.pc.toNat < s.params.memSize ∧ s.mem.read s.pc.toNat = opcodeByte 0x0 5 :=
  ⟨{ start vectorParams [] [] false false 0x3FF [0x05] with pc := 0x3FF }, by decide, by decide, by decide⟩

theorem witness_HaltRule : ∃ d : Decoded, d.icode = 0 :=
  ⟨{ icode := 0, ifun := 5, rA := none, rB := none, valC := 0, start := 0, valP := 1 }, rfl⟩

/-- The last quadword that fits and the first that does not, for rmmovq, mrmovq, readQuad and writeQuad. -/
theorem witness_QuadFits_address :
    QuadFits (start vectorParams [] []) 0x3F8 ∧ ¬ QuadFits (start vectorParams [] []) 0x3F9 := by
  unfold QuadFits; decide

/-- The same for the slots of call, pushq, ret and popq, in both failure modes. -/
theorem witness_QuadFits_stack :
    QuadFits (start vectorParams [] [(4, 0x400)]) ((start vectorParams [] [(4, 0x400)]).reg 4 - 8) ∧
    (let s := start vectorParams [] [(4, 0x401)]
     ¬ QuadFits s (s.reg 4 - 8) ∧ s.params.stackFailMode = .reference) ∧
    (let s := start { vectorParams with stackFailMode := .rollback } [] [(4, 7)]
     ¬ QuadFits s (s.reg 4 - 8) ∧ s.params.stackFailMode = .rollback) ∧
    QuadFits (start vectorParams [] [(4, 0x3F8)]) ((start vectorParams [] [(4, 0x3F8)]).reg 4) ∧
    ¬ QuadFits (start vectorParams [] [(4, 0x3F9)]) ((start vectorParams [] [(4, 0x3F9)]).reg 4) := by
  unfold QuadFits; decide

/-- The value `popq` reads is some word, for a register and for `%rsp` itself. -/
theorem witness_PopqRule :
    ∃ (s : State) (v : Word), v.toNat = quadValue s.mem (s.reg 4).toNat ∧ QuadFits s (s.reg 4) ∧ (0 : Reg) ≠ 4 :=
  ⟨start vectorParams [] [(4, 992)] false false 992 [42], 42, by decide, by unfold QuadFits; decide, by decide⟩

theorem witness_StoreThenLoad :
    ∃ (f g : Nibble) (rA rB rC rD : Reg) (d e : Word) (s t u w : State),
      s.stat = .aok ∧ t.stat = .aok ∧ u.stat = .aok ∧ w.stat = .aok ∧ exec (.rmmovq f rA rB d) s = .next t ∧
      (∀ i < 8, u.mem.read ((s.reg rB + d).toNat + i) = t.mem.read ((s.reg rB + d).toNat + i)) ∧
      u.reg rD + e = s.reg rB + d ∧ exec (.mrmovq g rC rD e) u = .next w := by
  let s := start vectorParams [] [(0, 5), (3, 0x200)]
  let t := nextOf (exec (.rmmovq 0 0 3 8) s)
  exact ⟨0, 0, 0, 3, 1, 3, 8, 8, s, t, t, nextOf (exec (.mrmovq 0 1 3 8) t), by decide, by decide, by decide, by decide,
    eq_next_nextOf (by decide), fun _ _ => rfl, by decide, eq_next_nextOf (by decide)⟩

theorem witness_CallThenRet :
    ∃ (f g : Nibble) (target : Word) (s t u w : State),
      s.stat = .aok ∧ t.stat = .aok ∧ u.stat = .aok ∧ w.stat = .aok ∧ exec (.call f target) s = .next t ∧
      u.reg 4 = t.reg 4 ∧ (∀ i < 8, u.mem.read ((t.reg 4).toNat + i) = t.mem.read ((t.reg 4).toNat + i)) ∧
      exec (.ret g) u = .next w := by
  let s := start vectorParams [] [(4, 1000)]
  let t := nextOf (exec (.call 0 0x200) s)
  exact ⟨0, 0, 0x200, s, t, t, nextOf (exec (.ret 0) t), by decide, by decide, by decide, by decide,
    eq_next_nextOf (by decide), rfl, fun _ _ => rfl, eq_next_nextOf (by decide)⟩

theorem witness_PushThenPop :
    ∃ (f g m n : Nibble) (rX rY : Reg) (s t u : State),
      s.stat = .aok ∧ t.stat = .aok ∧ u.stat = .aok ∧ rX ≠ 4 ∧ rY ≠ 4 ∧ exec (.pushq f rX m) s = .next t ∧
      exec (.popq g rY n) t = .next u := by
  let s := start vectorParams [] [(0, 7), (4, 1000)]
  let t := nextOf (exec (.pushq 0 0 0xF) s)
  exact ⟨0, 0, 0xF, 0xF, 0, 1, s, t, nextOf (exec (.popq 0 1 0xF) t), by decide, by decide, by decide, by decide,
    by decide, eq_next_nextOf (by decide), eq_next_nextOf (by decide)⟩

theorem witness_Move_and_Jump_rules :
    (start y86Params [] []).params.moveJumpExec = .y86 ∧ (start vectorParams [] []).params.moveJumpExec = .fault := by
  decide

theorem witness_FlagsUnreadUnderFault :
    ∃ s t : State, s.params.moveJumpExec = .fault ∧ step s = .next t := by
  obtain ⟨t, ht, -⟩ := next_of (r := step (start vectorParams [0x60, 0x03] [])) (fun _ => true) (by decide)
  exact ⟨_, t, by decide, ht⟩

/-- The last byte of memory and the first address past it. -/
theorem witness_ReadPrimitives :
    (0x3FF : Word).toNat < (start vectorParams [] []).params.memSize ∧
      (start vectorParams [] []).params.memSize ≤ (0x400 : Word).toNat := by decide

theorem witness_WriteThenRead :
    ∃ (s t : State) (a v b : Word) (i : Nat), s.writeQuad a v = some t ∧ i < 8 ∧ b.toNat = a.toNat + i :=
  ⟨start vectorParams [] [], _, 0x3F8, 5, 0x3FF, 7, rfl, by decide, by decide⟩

theorem witness_NoWrapInBoundsCheck : ∃ (s : State) (a : Word), s.params.wf ∧ 2 ^ 64 < a.toNat + 8 :=
  ⟨State.reset, 0xFFFFFFFFFFFFFFF9, by decide, by decide⟩

theorem witness_FetchSeesTheStore :
    ∃ (fn : Nibble) (rA rB : Reg) (d : Word) (i : Instr) (rest : List Byte) (s : State),
      s.stat = .aok ∧ InstrAtPc s (.rmmovq fn rA rB d) ∧ s.reg rB + d = s.pc + 10 ∧ QuadFits s (s.pc + 10) ∧
      i.wellFormed = true ∧ leBytes (s.reg rA) = encode i ++ rest :=
  ⟨0, 0, 3, 0x10A, .addq 0 3, [0, 0, 0, 0, 0, 0],
    start vectorParams [0x40, 0x03, 0x0A, 1, 0, 0, 0, 0, 0, 0] [(0, 0x0360)], by decide,
    by unfold InstrAtPc; decide, by decide, by unfold QuadFits; decide, by decide, by decide⟩

theorem witness_StepKeepsInv : ∃ s t : State, s.Inv ∧ step s = .next t := by
  obtain ⟨t, ht, -⟩ := next_of (r := step (start vectorParams [0xA0, 0x0F] [(0, 42), (4, 1000)])) (fun _ => true) (by decide)
  exact ⟨_, t, by decide, ht⟩

theorem witness_LaunchRule : ∃ (p : Params) (image : List Byte), p.wf ∧ image.length = p.memSize :=
  ⟨{ vectorParams with memSize := 3 }, [0x60, 0x03, 0x00], by decide, rfl⟩

/-- A failing call and a failing push under `reference`, and a failing pop: both sides of the statement. -/
theorem witness_FailuresArePrecise :
    ∀ code ∈ [[(0x80 : Byte), 0, 2, 0, 0, 0, 0, 0, 0], [0xA0, 0x0F], [0xB0, 0x0F]], ∃ s t : State,
      s.stat = .aok ∧ step s = .next t ∧ t.stat ≠ .aok := by
  intro code hc
  refine ⟨start vectorParams code [(4, 0x402)], nextOf (step (start vectorParams code [(4, 0x402)])), ?_⟩
  simp only [List.mem_cons, List.not_mem_nil, or_false] at hc
  obtain rfl | rfl | rfl := hc <;> exact ⟨by decide, eq_next_nextOf (by decide), by decide⟩

/-- Every class of outcome occurs: a halt, an illegal byte, an out-of-bounds store, a move under `fault`, a division by
zero. -/
theorem witness_OutcomeCauses :
    [[(0x00 : Byte)], [0xC0], [0x40, 0x03, 0xF9, 3], [0x20], [0x65, 0x03]].map
      (fun code => after (start vectorParams code []) fun t => t.stat.code) =
    [some 1, some 4, some 5, some 6, some 7] := by decide

theorem witness_WritesOnlyItsRegisters :
    ∃ (i : Instr) (s t : State) (q : Reg), exec i s = .next t ∧ q ∉ mayWrite i ∧ q ∉ mayRead i := by
  obtain ⟨t, ht, -⟩ := next_of (r := exec (.pushq 0 0 0xF) (start vectorParams [] [(4, 1000)])) (fun _ => true) (by decide)
  exact ⟨_, _, t, 15, ht, by decide, by decide⟩

/-- A byte just below and a byte just above the quadword a store writes, and a load, which stores nothing. -/
theorem witness_StoresOnlyItsQuadword :
    ∃ (i j : Instr) (s t u : State) (w : Word), exec i s = .next t ∧ storeAddr i s = some w ∧
      (0x3F7 < w.toNat ∨ w.toNat + 8 ≤ 0x3F7) ∧ (0x400 < w.toNat ∨ w.toNat + 8 ≤ 0x400) ∧
      exec j s = .next u ∧ storeAddr j s = none := by
  obtain ⟨t, ht, -⟩ := next_of (r := exec (.rmmovq 0 0 3 0x3F8) (start vectorParams [] [])) (fun _ => true) (by decide)
  obtain ⟨u, hu, -⟩ := next_of (r := exec (.mrmovq 0 0 3 0x3F8) (start vectorParams [] [])) (fun _ => true) (by decide)
  exact ⟨_, _, _, t, u, 0x3F8, ht, by decide, by decide, by decide, hu, by decide⟩

theorem witness_StepKeepsParams_and_FlagsStayExclusive :
    ∃ s t : State, (s.zf && s.sf) = false ∧ step s = .next t := by
  obtain ⟨t, ht, -⟩ := next_of (r := step (start vectorParams [0x61, 0x03] [(0, 1)])) (fun _ => true) (by decide)
  exact ⟨_, t, by decide, ht⟩

theorem witness_PlacedWordRuns :
    ∃ (s : State) (nbits w : Nat) (i : Instr), s.pc.toNat + 10 ≤ s.params.memSize ∧ decodeTableWord nbits w = some i :=
  ⟨{ State.reset with params := { vectorParams with memSize := 10 } }, 8, 0x90, .ret 0, by decide, by decide⟩

end Sys2Proof.Tests
end

section
/-! The memory primitives of 20_memory.md: what readByte, readQuad and writeQuad answer (R43 to R46). -/

namespace Sys2Proof.Machine

/-- What a one-byte read answers. -/
theorem State.readByte_cases (s : State) (a : Word) :
    a.toNat < s.params.memSize ∧ s.readByte a = some (s.mem.read a.toNat) ∨
      ¬ a.toNat < s.params.memSize ∧ s.readByte a = none := by
  unfold State.readByte
  by_cases h : a.toNat < s.params.memSize
  · exact .inl ⟨h, if_pos ((s.inBounds_iff a 1).2 h)⟩
  · exact .inr ⟨h, if_neg (mt (s.inBounds_iff a 1).1 h)⟩

end Sys2Proof.Machine

namespace Sys2Proof.Claims

open Sys2Proof.Machine

/-- The bytes the model stores are those the claims write with Nat arithmetic (R46). -/
theorem getElem_quadBytes (v : Word) {i : Nat} (h : i < (quadBytes v).length) : (quadBytes v)[i] = byteOf v i := by
  have hi : i < 8 := h
  rw [byteOf, ← quadByte_eq_ofNat]
  interval_cases i <;> rfl

/-- Writing a quadword's bytes stores them and keeps every byte outside the eight (R46). -/
theorem storesQuad_writeBytes (s : State) (a : Nat) (v : Word) :
    StoresQuad s (s.setMem (s.mem.writeBytes a (quadBytes v))) a v := by
  refine ⟨fun i hi => ?_, fun b hb => Memory.read_writeBytes_outside hb⟩
  rw [State.setMem_mem, Memory.read_writeBytes_inside (by simpa using hi), getElem_quadBytes]

/-- Settles O42: each read is its bounds check and then the bytes, and a quadword's value is their weighted sum. -/
theorem readPrimitives : Obligations.ReadPrimitives := by
  intro s a
  refine ⟨?_, ?_, ?_, ?_⟩
  · intro h
    obtain ⟨-, hr⟩ | ⟨hn, -⟩ := s.readByte_cases a
    · exact hr
    · exact absurd h hn
  · intro h
    obtain ⟨hb, -⟩ | ⟨-, hr⟩ := s.readByte_cases a
    · exact absurd hb (Nat.not_lt.2 h)
    · exact hr
  · intro h
    obtain ⟨-, hr⟩ | ⟨hn, -⟩ := s.readQuad_cases a
    · exact ⟨_, hr, Memory.quad_toNat s.mem a.toNat⟩
    · exact absurd h hn
  · intro h
    obtain ⟨hb, -⟩ | ⟨-, hr⟩ := s.readQuad_cases a
    · exact absurd hb h
    · exact hr

/-- Settles O43: a store that passes the check changes the memory field alone, and there its eight bytes alone. -/
theorem writeQuadPrimitive : Obligations.WriteQuadPrimitive := by
  intro s a v
  obtain ⟨hb, hw⟩ | ⟨hn, hw⟩ := s.writeQuad_cases a v
  · exact ⟨fun _ => ⟨_, hw, storesQuad_writeBytes s a.toNat v, s.reg_setMem _, ⟨rfl, rfl⟩, rfl, ⟨rfl, rfl⟩⟩,
      fun hn => absurd hb hn⟩
  · exact ⟨fun hb => absurd hb hn, fun _ => hw⟩

end Sys2Proof.Claims
end

section
/-! The ends of fetch and decode (30_encoding.md section 5, R72 to R76) in both views of the step: the decoder on the
bytes at the pc, and the fetch/decode unit. -/

namespace Sys2Proof

/-! ## The opcode map: how long a layout is, and which opcodes are illegal -/

/-- The bytes a layout takes up, byte 0 with it (R62). Decode reads no byte but byte 0 of an illegal one (R72). -/
def Layout.length : Layout → Nat
  | .illegal _ | .f1 _ => 1
  | .f2 _ => 2
  | .f9 _ => 9
  | .f10 _ => 10

theorem takeQuad_of_short {bs : List Byte} (h : bs.length < 8) : takeQuad bs = none := by
  obtain ⟨v, rest, -, rfl⟩ | ⟨hq, -⟩ := takeQuad_cases bs
  · rw [List.length_append, length_quadBytes] at h
    omega
  · exact hq

/-- R76: a string shorter than the layout its byte 0 selects is truncated, with the layout's length. -/
theorem decode_of_too_short {b0 : Byte} {rest : List Byte}
    (h : (b0 :: rest).length < (layout (hiNibble b0) (loNibble b0)).length) :
    decode (b0 :: rest) = .truncated (layout (hiNibble b0) (loNibble b0)).length := by
  rw [List.length_cons] at h
  unfold decode
  cases hl : layout (hiNibble b0) (loNibble b0) with simp only [hl, Layout.length] at h ⊢
  | illegal i => omega
  | f1 i => omega
  | f2 mk =>
    obtain rfl : rest = [] := List.length_eq_zero_iff.1 (by omega)
    rfl
  | f9 mk =>
    rw [takeQuad_of_short (by omega)]
  | f10 mk =>
    cases rest with
    | nil => rfl
    | cons b1 rest =>
      rw [List.length_cons] at h
      simp only [takeQuad_of_short (show rest.length < 8 by omega)]

/-- A layout that is illegal ends decoding at byte 0, whatever follows (R72). -/
theorem decode_of_illegal {b0 : Byte} {i : Instr} (h : layout (hiNibble b0) (loNibble b0) = .illegal i)
    (rest : List Byte) : decode (b0 :: rest) = .ok i rest := by
  simp only [decode, h]

theorem layout_of_illegalFamily {icode : Nibble} (h : 0xC ≤ icode.toNat) (fn : Nibble) :
    layout icode fn = .illegal (.illegalFamily icode fn) := by
  have := icode.isLt
  unfold layout
  interval_cases icode.toNat <;> rfl

theorem opqLayout_of_gt {fn : Nibble} (h : 6 < fn.toNat) : opqLayout fn = .illegal (.illegalOpq fn) := by
  have := fn.isLt
  unfold opqLayout
  interval_cases fn.toNat <;> rfl

theorem jumpLayout_of_gt {fn : Nibble} (h : 6 < fn.toNat) : jumpLayout fn = .illegal (.illegalJxx fn) := by
  have := fn.isLt
  unfold jumpLayout
  interval_cases fn.toNat <;> rfl

@[simp] theorem length_moveLayout (fn : Nibble) : (moveLayout fn).length = 10 := by
  unfold moveLayout
  split <;> rfl

theorem length_opqLayout {fn : Nibble} (h : fn.toNat ≤ 6) : (opqLayout fn).length = 2 := by
  unfold opqLayout
  interval_cases fn.toNat <;> rfl

theorem length_jumpLayout {fn : Nibble} (h : fn.toNat ≤ 6) : (jumpLayout fn).length = 9 := by
  unfold jumpLayout
  interval_cases fn.toNat <;> rfl

end Sys2Proof

namespace Sys2Proof.Machine

/-! ## The bytes fetched, and the step by what they decode to -/

theorem State.fetchBytes_of_le {s : State} (h : s.params.memSize ≤ s.pc.toNat) : s.fetchBytes = [] := by
  rw [State.fetchBytes, Nat.sub_eq_zero_of_le h]
  rfl

theorem State.length_fetchBytes (s : State) :
    s.fetchBytes.length = min maxInstrLength (s.params.memSize - s.pc.toNat) := by
  simp [State.fetchBytes]

/-- With the pc inside memory, the first byte fetched is the one there. -/
theorem State.fetchBytes_of_lt {s : State} (h : s.pc.toNat < s.params.memSize) :
    ∃ rest, s.fetchBytes = s.mem.read s.pc.toNat :: rest := by
  obtain ⟨n, hn⟩ : ∃ n, min maxInstrLength (s.params.memSize - s.pc.toNat) = n + 1 :=
    Nat.exists_eq_add_one.2 (by simp only [maxInstrLength]; omega)
  exact ⟨_, by rw [State.fetchBytes, hn, Memory.readBytes]⟩

theorem step_of_decode_ok {s : State} {i : Instr} {rest : List Byte} (hs : s.stat = .aok)
    (hd : decode s.fetchBytes = .ok i rest) : step s = exec i s := by
  simp only [step, if_pos hs, hd]

theorem step_of_decode_noByte {s : State} (hs : s.stat = .aok) (hd : decode s.fetchBytes = .noByte) :
    step s = .next (s.setStat (.errFetchOob s.pc)) := by
  simp only [step, if_pos hs, hd, State.raise]

theorem step_of_decode_truncated {s : State} {len : Nat} (hs : s.stat = .aok)
    (hd : decode s.fetchBytes = .truncated len) : step s = .next (s.setStat (.errTruncated s.pc len)) := by
  simp only [step, if_pos hs, hd, State.raise]

end Sys2Proof.Machine

namespace Sys2Proof.Claims

open Sys2Proof.Machine

/-! ## Illegal bytes and lengths in the claims' terms -/

/-- The illegal bytes by their nibbles: a family that names nothing, or one of two families with a code above 6
(R74, R75). -/
theorem illegalByte_iff (b : Byte) :
    IllegalByte b ↔ 0xC ≤ (hiNibble b).toNat ∨ (hiNibble b = 0x6 ∨ hiNibble b = 0x7) ∧ 6 < (loNibble b).toNat := by
  rw [IllegalByte, ← hiNibble_toNat, ← loNibble_toNat, ← BitVec.toNat_inj, ← BitVec.toNat_inj]
  rfl

/-- The model's one-byte form of an illegal byte (log entry 7): it decodes, and its meaning raises ERR_INVALID with
the pc and the byte (R74, R75). -/
theorem decode_of_illegalByte {b0 : Byte} (h : IllegalByte b0) (rest : List Byte) :
    ∃ i, decode (b0 :: rest) = .ok i rest ∧ ∀ s : State, exec i s = .next (s.setStat (.errInvalid s.pc b0)) := by
  have hb := packByte_nibbles b0
  obtain hc | ⟨hc | hc, hf⟩ := (illegalByte_iff b0).1 h
  · refine ⟨_, decode_of_illegal (layout_of_illegalFamily hc _) rest, fun s => ?_⟩
    rw [exec, execIllegalFamily, hb, State.raise]
  · refine ⟨_, decode_of_illegal (by rw [hc]; exact opqLayout_of_gt hf) rest, fun s => ?_⟩
    rw [exec, execIllegalOpq, ← hc, hb, State.raise]
  · refine ⟨_, decode_of_illegal (by rw [hc]; exact jumpLayout_of_gt hf) rest, fun s => ?_⟩
    rw [exec, execIllegalJxx, ← hc, hb, State.raise]

/-- R81: the layout of a legal byte is as long as the table's entry for its high nibble. -/
theorem length_layout_of_legal {b : Byte} (h : ¬ IllegalByte b) :
    (layout (hiNibble b) (loNibble b)).length = tableLength (b.toNat / 16) := by
  rw [IllegalByte, ← hiNibble_toNat, ← loNibble_toNat] at h
  rw [← hiNibble_toNat]
  have hfam : (hiNibble b).toNat < 0xC := by omega
  have hcode : (hiNibble b).toNat = 6 ∨ (hiNibble b).toNat = 7 → (loNibble b).toNat ≤ 6 := by omega
  unfold layout
  interval_cases (hiNibble b).toNat
  -- `rfl` closes the families whose layout does not depend on the code; 0x2, 0x6 and 0x7 are left, in this order.
  any_goals rfl
  · exact length_moveLayout _
  · exact length_opqLayout (hcode (.inl rfl))
  · exact length_jumpLayout (hcode (.inr rfl))

/-- `LENGTH` of the fetch/decode unit is the spec's table on the twelve families, and nothing elsewhere (R81). -/
theorem lengthOf_eq (icode : Nibble) :
    lengthOf icode = if icode.toNat < 0xC then some (tableLength icode.toNat) else none := by
  revert icode; decide

/-! ## The fetch/decode unit's failures, in the order of R72 -/

theorem fdu_of_outside {s : State} (h : s.params.memSize ≤ s.pc.toNat) : fdu s = .fail (.errFetchOob s.pc) := by
  obtain ⟨-, hread, -⟩ := readPrimitives s s.pc
  simp only [fdu, hread h]

theorem fdu_of_illegalByte {s : State} (hpc : s.pc.toNat < s.params.memSize)
    (h : IllegalByte (s.mem.read s.pc.toNat)) : fdu s = .fail (.errInvalid s.pc (s.mem.read s.pc.toNat)) := by
  obtain ⟨hread, -⟩ := readPrimitives s s.pc
  simp only [fdu, hread hpc, lengthOf_eq]
  obtain hc | hcode := (illegalByte_iff _).1 h
  · rw [if_neg (Nat.not_lt.2 hc)]
  · split
    · rfl
    · rw [if_pos hcode]

theorem fdu_of_truncated {s : State} (hpc : s.pc.toNat < s.params.memSize)
    (h : ¬ IllegalByte (s.mem.read s.pc.toNat))
    (hlen : s.params.memSize < s.pc.toNat + tableLength ((s.mem.read s.pc.toNat).toNat / 16)) :
    fdu s = .fail (.errTruncated s.pc (tableLength ((s.mem.read s.pc.toNat).toNat / 16))) := by
  rw [illegalByte_iff, not_or, Nat.not_le] at h
  obtain ⟨hfam, hcode⟩ := h
  rw [← hiNibble_toNat] at hlen ⊢
  obtain ⟨hread, -⟩ := readPrimitives s s.pc
  simp only [fdu, hread hpc, lengthOf_eq, if_pos hfam, if_neg hcode, if_pos hlen]

/-! ## The statements -/

/-- Settles O10: byte 0 alone decides, in the fetch/decode unit and in the decoder, so nothing about the bytes after
it or the end of memory is used. -/
theorem illegalByteIsInvalid : Obligations.IllegalByteIsInvalid := by
  rintro s _ hs hpc rfl hb
  obtain ⟨rest, hrest⟩ := State.fetchBytes_of_lt hpc
  obtain ⟨i, hdec, hexec⟩ := decode_of_illegalByte hb rest
  exact ⟨fdu_of_illegalByte hpc hb, (step_of_decode_ok hs (hrest ▸ hdec)).trans (hexec s)⟩

/-- Settles O11: too few bytes are fetched for the layout byte 0 selects, and that layout's length is the table's. -/
theorem truncatedInstruction : Obligations.TruncatedInstruction := by
  rintro s _ hs hpc rfl hb hlen
  have hlayout := length_layout_of_legal hb
  have hfetched := s.length_fetchBytes
  obtain ⟨rest, hrest⟩ := State.fetchBytes_of_lt hpc
  refine ⟨fdu_of_truncated hpc hb hlen, step_of_decode_truncated hs ?_⟩
  rw [hrest] at hfetched ⊢
  rw [decode_of_too_short (by omega), hlayout]

/-- Settles O9: no byte is fetched, and readByte, on which the fetch/decode unit rests, fails at the pc. -/
theorem fetchOutOfBounds : Obligations.FetchOutOfBounds := by
  intro s hs hpc
  obtain ⟨-, hread, -⟩ := readPrimitives s s.pc
  refine ⟨hread hpc, fdu_of_outside hpc, step_of_decode_noByte hs ?_⟩
  rw [State.fetchBytes_of_le hpc, decode]

end Sys2Proof.Claims
end

section
/-! The arithmetic/logic family (41_arithmetic.md): its encoding (R62, R68), the two ends of an `aluStep` in the claims'
terms (R92, R94, R95), and the rules of the seven operations (R96 to R102). -/

namespace Sys2Proof.Claims

open Sys2Proof.Machine

/-! ## The encoding -/

/-- The claims' register byte is the model's (R63). -/
theorem regByte_toNat (a b : Nibble) : regByte a.toNat b.toNat = packByte a b :=
  (packByte_eq_ofNat a b).symm

/-- An opcode byte of format F2 is completed by its register byte's two nibbles (R62). -/
theorem decode_of_f2 {b0 : Byte} {mk : Nibble → Nibble → Instr}
    (h : layout (hiNibble b0) (loNibble b0) = .f2 mk) (a b : Nibble) (rest : List Byte) :
    decode (b0 :: regByte a.toNat b.toNat :: rest) = .ok (mk a b) rest := by
  simp only [decode, h, regByte_toNat, hiNibble_packByte, loNibble_packByte]

/-- The code of an operation (R68). -/
def aluCode : AluFun → Nat
  | .add => 0
  | .sub => 1
  | .and => 2
  | .xor => 3
  | .mul => 4
  | .div => 5
  | .mod => 6

/-- The instruction of an operation (R68). -/
def aluInstr : AluFun → Reg → Reg → Instr
  | .add => .addq
  | .sub => .subq
  | .and => .andq
  | .xor => .xorq
  | .mul => .mulq
  | .div => .divq
  | .mod => .modq

theorem layout_aluCode (f : AluFun) :
    layout (hiNibble (opcodeByte 0x6 (aluCode f))) (loNibble (opcodeByte 0x6 (aluCode f))) =
      bothRegs (aluInstr f) := by
  cases f <;> rfl

/-- The two bytes of an arithmetic/logic instruction decode to it, for every pair of registers. -/
theorem decode_aluInstr (f : AluFun) (rA rB : Reg) (rest : List Byte) :
    decode (opcodeByte 0x6 (aluCode f) :: regByte rA rB :: rest) = .ok (aluInstr f rA rB) rest :=
  decode_of_f2 (layout_aluCode f) (regNibble rA) (regNibble rB) rest

/-! ## The meaning -/

/-- Each instruction of the family means the shared step with its own operation (R92). -/
theorem exec_aluInstr (f : AluFun) (rA rB : Reg) (s : State) : exec (aluInstr f rA rB) s = aluStep f rA rB s := by
  cases f <;> rfl

theorem zeroFlag_iff (r : Word) : zeroFlag r = true ↔ r.toNat = 0 := by
  rw [zeroFlag, decide_eq_true_iff, ← BitVec.toNat_inj]
  rfl

theorem signFlag_iff (r : Word) : signFlag r = true ↔ 2 ^ 63 ≤ r.toNat := by
  rw [signFlag, BitVec.msb_eq_decide, decide_eq_true_iff]

/-- R92, R94: with no division by zero the instruction completes, and its effect is that of the number `r` its result
stands for. -/
theorem exec_aluInstr_effect {f : AluFun} {rA rB : Reg} {s : State} {r : Nat} (h0 : aluDivZero f (s.reg rA) = false)
    (hr : (aluResult f (s.reg rA) (s.reg rB)).toNat = r) :
    ∃ t, exec (aluInstr f rA rB) s = .next t ∧ OpqEffect s t rB r := by
  obtain ⟨h, -⟩ | ⟨-, hstep⟩ := aluStep_cases f rA rB s
  · exact absurd (h0.symm.trans h) Bool.false_ne_true
  · refine ⟨_, (exec_aluInstr f rA rB s).trans hstep, ?_, ?_, ?_, ?_, rfl, fun _ => rfl, rfl, rfl⟩
    · simpa using hr
    · intro q hq
      simp [hq]
    · rw [← hr]
      exact zeroFlag_iff _
    · rw [← hr]
      exact signFlag_iff _

/-- R95: on a division by zero the instruction raises ERR_DIV_ZERO and changes nothing else. -/
theorem exec_aluInstr_divZero {f : AluFun} {rA rB : Reg} {s : State} (h0 : aluDivZero f (s.reg rA) = true) :
    exec (aluInstr f rA rB) s = .next (s.setStat (.errDivZero s.pc)) := by
  obtain ⟨-, hstep⟩ | ⟨h, -⟩ := aluStep_cases f rA rB s
  · exact (exec_aluInstr f rA rB s).trans hstep
  · exact absurd (h.symm.trans h0) Bool.false_ne_true

/-- The difference in the order the claims write it, which stays in the naturals (R97). -/
theorem aluResult_sub_toNat (a b : Word) :
    (aluResult .sub a b).toNat = (b.toNat + 2 ^ 64 - a.toNat) % 2 ^ 64 := by
  have ha := a.isLt
  rw [aluResult, BitVec.toNat_sub]
  congr 1
  omega

/-! ## The statements -/

/-- Settles O15: addition of words is the sum modulo 2^64. -/
theorem addqRule : Obligations.AddqRule := fun rA rB =>
  ⟨decode_aluInstr .add rA rB, fun _ => exec_aluInstr_effect (f := .add) rfl (BitVec.toNat_add ..)⟩

/-- Settles O16: the difference is taken as `R[rB] - R[rA]`, modulo 2^64. -/
theorem subqRule : Obligations.SubqRule := fun rA rB =>
  ⟨decode_aluInstr .sub rA rB, fun _ => exec_aluInstr_effect (f := .sub) rfl (aluResult_sub_toNat ..)⟩

/-- Settles O17: the conjunction of words is that of their numbers. -/
theorem andqRule : Obligations.AndqRule := fun rA rB =>
  ⟨decode_aluInstr .and rA rB, fun _ => exec_aluInstr_effect (f := .and) rfl (BitVec.toNat_and ..)⟩

/-- Settles O18: the exclusive or of words is that of their numbers. -/
theorem xorqRule : Obligations.XorqRule := fun rA rB =>
  ⟨decode_aluInstr .xor rA rB, fun _ => exec_aluInstr_effect (f := .xor) rfl (BitVec.toNat_xor ..)⟩

/-- Settles O19: multiplication of words is the product modulo 2^64. -/
theorem mulqRule : Obligations.MulqRule := fun rA rB =>
  ⟨decode_aluInstr .mul rA rB, fun _ => exec_aluInstr_effect (f := .mul) rfl (BitVec.toNat_mul ..)⟩

/-- Settles O20: by whether the divisor is zero; the quotient of words is that of their numbers. -/
theorem divqRule : Obligations.DivqRule := fun rA rB =>
  ⟨decode_aluInstr .div rA rB, fun _ =>
    ⟨fun ha => exec_aluInstr_effect (f := .div) (decide_eq_false ha) BitVec.toNat_udiv,
      fun ha => exec_aluInstr_divZero (f := .div) (decide_eq_true ha)⟩⟩

/-- Settles O21: by whether the divisor is zero; the remainder of words is that of their numbers. -/
theorem modqRule : Obligations.ModqRule := fun rA rB =>
  ⟨decode_aluInstr .mod rA rB, fun _ =>
    ⟨fun ha => exec_aluInstr_effect (f := .mod) (decide_eq_false ha) BitVec.toNat_umod,
      fun ha => exec_aluInstr_divZero (f := .mod) (decide_eq_true ha)⟩⟩

end Sys2Proof.Claims
end

section
/-! The Simple-Operation Unit (42_simple_ops.md): the encodings of formats F1 and F10 (R62, R66), the end of a unit
that is handed a family not its own (R90), and the rules of halt, nop, irmovq, rmmovq and mrmovq (R105 to R109). -/

namespace Sys2Proof.Claims

open Sys2Proof.Machine

/-! ## The encoding -/

/-- The claims' opcode byte selects the layout of its two nibbles (R60, R61). -/
theorem layout_opcodeByte (icode fn : Nibble) :
    layout (hiNibble (opcodeByte icode.toNat fn.toNat)) (loNibble (opcodeByte icode.toNat fn.toNat)) =
      layout icode fn := by
  have h : opcodeByte icode.toNat fn.toNat = packByte icode fn := (packByte_eq_ofNat icode fn).symm
  rw [h, hiNibble_packByte, loNibble_packByte]

/-- The claims' bytes of an immediate are the model's (R66). -/
theorem leBytes_eq_quadBytes (v : Word) : leBytes v = quadBytes v := by
  simp only [leBytes, quadBytes, byteOf, quadByte_eq_ofNat]

/-- An opcode byte of format F1 is a whole instruction (R62). -/
theorem decode_of_f1 {b0 : Byte} {i : Instr} (h : layout (hiNibble b0) (loNibble b0) = .f1 i) (rest : List Byte) :
    decode (b0 :: rest) = .ok i rest := by
  simp only [decode, h]

/-- An opcode byte of format F10 is completed by its register byte's two nibbles and its immediate (R62). -/
theorem decode_of_f10 {b0 : Byte} {mk : Nibble → Nibble → Word → Instr}
    (h : layout (hiNibble b0) (loNibble b0) = .f10 mk) (a b : Nibble) (v : Word) (rest : List Byte) :
    decode (b0 :: regByte a.toNat b.toNat :: (leBytes v ++ rest)) = .ok (mk a b v) rest := by
  simp only [decode, h, leBytes_eq_quadBytes, takeQuad_quadBytes, regByte_toNat, hiNibble_packByte,
    loNibble_packByte]

theorem decode_halt (fn : Nibble) (rest : List Byte) :
    decode (opcodeByte 0x0 fn.toNat :: rest) = .ok (.halt fn) rest :=
  decode_of_f1 (layout_opcodeByte 0x0 fn) rest

/-! ## The meaning -/

/-- The register an instruction loads holds the value after the pc has advanced. -/
theorem reg_setReg_advance (s : State) (r : Reg) (v : Word) (n : Nat) : ((s.setReg r v).advance n).reg r = v := by
  rw [State.reg_advance, State.reg_setReg, if_pos rfl]

theorem sameRegsBut_setReg_advance (s : State) (r : Reg) (v : Word) (n : Nat) :
    SameRegsBut r s ((s.setReg r v).advance n) := by
  intro q hq
  rw [State.reg_advance, State.reg_setReg, if_neg hq]

/-- R90: a unit that the family of `D` is not dispatched to raises ERR_UNRECOGNIZED with the start address. -/
theorem unitExecute_of_dispatchUnit_ne {u : ExecUnit} {d : Decoded} (h : dispatchUnit d.icode ≠ some u) (s : State) :
    unitExecute u d s = .next (s.setStat (.errUnrecognized d.start)) :=
  if_neg h

/-- A halt byte inside memory, its last byte included, ends the step in halt (R86, R105). -/
theorem step_of_halt_byte {s : State} {fn : Nibble} (hs : s.stat = .aok) (hpc : s.pc.toNat < s.params.memSize)
    (hb : s.mem.read s.pc.toNat = opcodeByte 0x0 fn.toNat) : step s = .next (s.setStat .hlt) := by
  obtain ⟨rest, hfetch⟩ := State.fetchBytes_of_lt hpc
  have hdec : decode s.fetchBytes = .ok (.halt fn) rest := by rw [hfetch, hb, decode_halt]
  exact step_of_decode_ok hs hdec

/-! ## The statements -/

/-- Settles O24: one byte is all that halt needs, at fetch as in decode, and no unit is dispatched family 0. -/
theorem haltRule : Obligations.HaltRule := by
  refine fun fn => ⟨decode_halt fn, fun s => ⟨rfl, step_of_halt_byte⟩, fun u d s hd => ?_⟩
  have hne : dispatchUnit d.icode ≠ some u := by rw [hd]; exact nofun
  exact unitExecute_of_dispatchUnit_ne hne s

/-- Settles O25: the meaning of nop is the default next pc alone (R91). -/
theorem nopRule : Obligations.NopRule := fun fn =>
  ⟨decode_of_f1 (layout_opcodeByte 0x1 fn), fun _ => rfl⟩

/-- Settles O26: one register write and the default next pc; the ignored nibble is read by nothing. -/
theorem irmovqRule : Obligations.IrmovqRule := fun fn ign rB v =>
  ⟨decode_of_f10 (layout_opcodeByte 0x3 fn) ign (regNibble rB) v, fun s =>
    ⟨(s.setReg rB v).advance 10, rfl, reg_setReg_advance s rB v 10, sameRegsBut_setReg_advance s rB v 10,
      ⟨rfl, rfl⟩, rfl, fun _ => rfl, rfl, rfl⟩⟩

/-- Settles O27: by whether the quadword fits; the store is that of writeQuad (R46). -/
theorem rmmovqRule : Obligations.RmmovqRule := by
  refine fun fn rA rB d =>
    ⟨decode_of_f10 (layout_opcodeByte 0x4 fn) (regNibble rA) (regNibble rB) d, fun s => ?_⟩
  obtain ⟨hfits, hexec⟩ | ⟨hfails, hexec⟩ := execRmmovq_cases fn rA rB d s
  · exact ⟨fun _ => ⟨_, hexec, storesQuad_writeBytes s _ _, fun _ => rfl, ⟨rfl, rfl⟩, rfl, rfl, rfl⟩,
      fun hn => absurd hfits hn⟩
  · exact ⟨fun h => absurd h hfails, fun _ => hexec⟩

/-- Settles O28: by whether the quadword fits; the address is taken before the register is written, so `rA = rB` is
no case of its own. -/
theorem mrmovqRule : Obligations.MrmovqRule := by
  refine fun fn rA rB d =>
    ⟨decode_of_f10 (layout_opcodeByte 0x5 fn) (regNibble rA) (regNibble rB) d, fun s => ?_⟩
  obtain ⟨hfits, hexec⟩ | ⟨hfails, hexec⟩ := execMrmovq_cases fn rA rB d s
  · refine ⟨fun _ => ⟨_, hexec, ?_, sameRegsBut_setReg_advance s rA _ 10, ⟨rfl, rfl⟩, rfl, fun _ => rfl,
      rfl, rfl⟩, fun hn => absurd hfits hn⟩
    rw [reg_setReg_advance]
    exact Memory.quad_toNat s.mem _
  · exact ⟨fun h => absurd h hfails, fun _ => hexec⟩

end Sys2Proof.Claims
end

section
/-! The Stack Unit (43_stack.md): the encoding of format F9 (R62, R66), the store that call and pushq share with its
two failures (R12), and the rules of call, ret, pushq and popq (R112 to R115). -/

namespace Sys2Proof.Claims

open Sys2Proof.Machine

/-! ## The encoding -/

/-- An opcode byte of format F9 is completed by its immediate (R62). -/
theorem decode_of_f9 {b0 : Byte} {mk : Word → Instr} (h : layout (hiNibble b0) (loNibble b0) = .f9 mk) (v : Word)
    (rest : List Byte) : decode (b0 :: (leBytes v ++ rest)) = .ok (mk v) rest := by
  simp only [decode, h, leBytes_eq_quadBytes, takeQuad_quadBytes]

/-! ## The meaning -/

theorem reg_setReg_same (s : State) (r : Reg) (v : Word) : (s.setReg r v).reg r = v := by
  rw [State.reg_setReg, if_pos rfl]

theorem sameRegsBut_setReg (s : State) (r : Reg) (v : Word) : SameRegsBut r s (s.setReg r v) := by
  intro q hq
  rw [State.reg_setReg, if_neg hq]

/-- R111, R12: the store below the stack pointer, from a state `s` in which the instruction has so far written at most
the pc. It fits or not, and when it does not `STACK_FAIL_MODE` says whether that pc and the decremented stack pointer
are kept. -/
theorem pushQuad_rule (s : State) (curPc v nextPc : Word) :
    (QuadFits s (s.reg 4 - 8) → ∃ t, pushQuad s (s.setPc curPc) v nextPc = .next t ∧
      t.reg 4 = s.reg 4 - 8 ∧ SameRegsBut 4 s t ∧ StoresQuad s t (s.reg 4 - 8).toNat v ∧ SameFlags s t ∧
      t.pc = nextPc ∧ SameRest s t) ∧
    (¬ QuadFits s (s.reg 4 - 8) → s.params.stackFailMode = .rollback →
      pushQuad s (s.setPc curPc) v nextPc = .next (s.setStat (.errMemOob (s.reg 4 - 8) 8))) ∧
    (¬ QuadFits s (s.reg 4 - 8) → s.params.stackFailMode = .reference →
      ∃ t, pushQuad s (s.setPc curPc) v nextPc = .next t ∧ t.stat = .errMemOob (s.reg 4 - 8) 8 ∧
        t.reg 4 = s.reg 4 - 8 ∧ SameRegsBut 4 s t ∧ t.pc = curPc ∧ SameFlags s t ∧ SameMem s t ∧
        t.params = s.params) := by
  have hsp := reg_setReg_same s 4 (s.reg 4 - 8)
  have hframe := sameRegsBut_setReg s 4 (s.reg 4 - 8)
  obtain ⟨hfits, hpush⟩ | ⟨hfails, ⟨hmode, hpush⟩ | ⟨hmode, hpush⟩⟩ := pushQuad_cases s (s.setPc curPc) v nextPc rfl
  · exact ⟨fun _ => ⟨_, hpush, hsp, hframe, storesQuad_writeBytes s _ v, ⟨rfl, rfl⟩, rfl, rfl, rfl⟩,
      fun hn => absurd hfits hn, fun hn => absurd hfits hn⟩
  · exact ⟨fun h => absurd h hfails, fun _ hrollback => absurd (hmode.symm.trans hrollback) nofun,
      fun _ _ => ⟨_, hpush, rfl, hsp, hframe, rfl, ⟨rfl, rfl⟩, fun _ => rfl, rfl⟩⟩
  · exact ⟨fun h => absurd h hfails, fun _ _ => hpush,
      fun _ hreference => absurd (hmode.symm.trans hreference) nofun⟩

/-- The pushed value in the claims' terms: a register's, or for `%rsp` the one `PUSH_SP_VALUE` selects (R13, R114). -/
theorem pushValue_eq (s : State) (rA : Reg) :
    s.pushValue rA =
      if rA = 4 then (if s.params.pushSpValue = .old then s.reg 4 else s.reg 4 - 8) else s.reg rA := by
  unfold State.pushValue State.pushSlot spIndex
  cases s.params.pushSpValue <;> rfl

/-! ## The statements -/

/-- Settles O31: the shared store of the return address, once the pc has advanced to it. -/
theorem callRule : Obligations.CallRule := fun fn target =>
  ⟨decode_of_f9 (layout_opcodeByte 0x8 fn) target, fun s => pushQuad_rule s (s.pc + 9) (s.pc + 9) target⟩

/-- Settles O32: by whether the quadword at the stack pointer fits. -/
theorem retRule : Obligations.RetRule := by
  refine fun fn => ⟨decode_of_f1 (layout_opcodeByte 0x9 fn), fun s => ?_⟩
  obtain ⟨hfits, hexec⟩ | ⟨hfails, hexec⟩ := execRet_cases fn s
  · exact ⟨fun _ => ⟨_, hexec, Memory.quad_toNat s.mem _, reg_setReg_same s 4 _, sameRegsBut_setReg s 4 _,
      ⟨rfl, rfl⟩, fun _ => rfl, rfl, rfl⟩, fun hn => absurd hfits hn⟩
  · exact ⟨fun h => absurd h hfails, fun _ => hexec⟩

/-- Settles O33: the shared store of the pushed value, with the pc not yet advanced. -/
theorem pushqRule : Obligations.PushqRule := by
  refine fun fn rA ign => ⟨decode_of_f2 (layout_opcodeByte 0xA fn) (regNibble rA) ign, fun s => ?_⟩
  obtain ⟨hfits, hfails⟩ := pushQuad_rule s s.pc (s.pushValue rA) (s.pc + 2)
  refine ⟨fun v hv => ?_, hfails⟩
  rw [hv, ← pushValue_eq]
  exact hfits

/-- Settles O34: by whether the quadword at the stack pointer fits; which registers are written is that of popInto. -/
theorem popqRule : Obligations.PopqRule := by
  refine fun fn rA ign => ⟨decode_of_f2 (layout_opcodeByte 0xB fn) (regNibble rA) ign, fun s => ?_⟩
  obtain ⟨hfits, hexec⟩ | ⟨hfails, hexec⟩ := execPopq_cases fn rA ign s
  · refine ⟨fun v hv _ => ?_, fun hn => absurd hfits hn⟩
    have hquad : s.mem.quad s.popSlot.toNat = v := BitVec.eq_of_toNat_eq ((Memory.quad_toNat s.mem _).trans hv.symm)
    rw [hquad] at hexec
    obtain ⟨hzf, hsf, hpc, hmem, hstat, hparams⟩ := s.popInto_fields rA v
    refine ⟨_, hexec, fun hA => ⟨?_, ?_⟩, fun hA => ?_, fun q hqA hq4 => ?_, ⟨hzf, hsf⟩, ?_, ?_, hstat, hparams⟩
    · simp [State.reg_popInto, hA]
    · simp [State.reg_popInto, hA]
    · simp [State.reg_popInto, hA]
    · simp [State.reg_popInto, hqA, hq4]
    · rw [State.advance_pc, State.valP, hpc]
      rfl
    · intro a
      rw [State.advance_mem, hmem]
  · exact ⟨fun _ _ h => absurd h hfails, fun _ => hexec⟩

end Sys2Proof.Claims
end

section
/-! The register-move and conditional-jump families (44_move_jump.md): the encoding by condition (R69, R70), the ends of
a `moveStep` and of a `jumpStep` in the claims' terms (R118), and the rules of the fourteen instructions (R120 to
R133). -/

namespace Sys2Proof.Claims

open Sys2Proof.Machine

/-! ## The encoding -/

/-- The code of a condition, the same in both families (R119). -/
def condCode : Cond → Nat
  | .always => 0
  | .le => 1
  | .l => 2
  | .e => 3
  | .ne => 4
  | .ge => 5
  | .g => 6

/-- The register move under a condition (R70). -/
def condMove : Cond → Reg → Reg → Word → Instr
  | .always => .rrmovq
  | .le => .cmovle
  | .l => .cmovl
  | .e => .cmove
  | .ne => .cmovne
  | .ge => .cmovge
  | .g => .cmovg

/-- The jump under a condition (R69). -/
def condJump : Cond → Word → Instr
  | .always => .jmp
  | .le => .jle
  | .l => .jl
  | .e => .je
  | .ne => .jne
  | .ge => .jge
  | .g => .jg

theorem layout_condMove (c : Cond) :
    layout (hiNibble (opcodeByte 0x2 (condCode c))) (loNibble (opcodeByte 0x2 (condCode c))) =
      bothRegsImm (condMove c) := by
  cases c <;> rfl

theorem layout_condJump (c : Cond) :
    layout (hiNibble (opcodeByte 0x7 (condCode c))) (loNibble (opcodeByte 0x7 (condCode c))) = .f9 (condJump c) := by
  cases c <;> rfl

/-! ## The meaning -/

/-- Each register move means the shared step under its own condition. -/
theorem exec_condMove (c : Cond) (rA rB : Reg) (v : Word) (s : State) :
    exec (condMove c rA rB v) s = moveStep c rA rB s := by
  cases c <;> rfl

/-- Each jump means the shared step under its own condition. -/
theorem exec_condJump (c : Cond) (v : Word) (s : State) : exec (condJump c v) s = jumpStep c v s := by
  cases c <;> rfl

/-- The register moves' rule, for every condition: by the mode, and under `y86` by whether the condition holds. -/
theorem moveRule_condMove (c : Cond) : MoveRule (condCode c) (condMove c) (condHolds c) := by
  refine fun rA rB v => ⟨decode_of_f10 (layout_condMove c) (regNibble rA) (regNibble rB) v, fun s => ?_⟩
  rw [exec_condMove]
  obtain ⟨hmode, hstep⟩ | ⟨hmode, ⟨hcond, hstep⟩ | ⟨hcond, hstep⟩⟩ := moveStep_cases c rA rB s
  · exact ⟨fun hy86 => absurd (hmode.symm.trans hy86) nofun, fun _ => hstep⟩
  · refine ⟨fun _ => ⟨_, hstep, ?_, sameRegsBut_setReg_advance s rB _ 10, ⟨rfl, rfl⟩, rfl, fun _ => rfl, rfl, rfl⟩,
      fun hfault => absurd (hmode.symm.trans hfault) nofun⟩
    simp [hcond]
  · refine ⟨fun _ => ⟨_, hstep, ?_, fun q _ => State.reg_advance s 10 q, ⟨rfl, rfl⟩, rfl, fun _ => rfl, rfl, rfl⟩,
      fun hfault => absurd (hmode.symm.trans hfault) nofun⟩
    simp [hcond]

/-- The jumps' rule, for every condition: by the mode; under `y86` the condition only selects the next pc. -/
theorem jumpRule_condJump (c : Cond) : JumpRule (condCode c) (condJump c) (condHolds c) := by
  refine fun v => ⟨decode_of_f9 (layout_condJump c) v, fun s => ?_⟩
  rw [exec_condJump]
  obtain ⟨hmode, hstep⟩ | ⟨hmode, hstep⟩ := jumpStep_cases c v s
  · exact ⟨fun hy86 => absurd (hmode.symm.trans hy86) nofun, fun _ => hstep⟩
  · exact ⟨fun _ => ⟨_, hstep, rfl, fun _ => rfl, ⟨rfl, rfl⟩, fun _ => rfl, rfl, rfl⟩,
      fun hfault => absurd (hmode.symm.trans hfault) nofun⟩

/-! ## The statements -/

/-- Settles O37: the rule of every condition, at the seven conditions. -/
theorem registerMoveRules : Obligations.RegisterMoveRules :=
  ⟨moveRule_condMove .always, moveRule_condMove .le, moveRule_condMove .l, moveRule_condMove .e,
    moveRule_condMove .ne, moveRule_condMove .ge, moveRule_condMove .g⟩

/-- Settles O39: the rule of every condition, at the seven conditions. -/
theorem conditionalJumpRules : Obligations.ConditionalJumpRules :=
  ⟨jumpRule_condJump .always, jumpRule_condJump .le, jumpRule_condJump .l, jumpRule_condJump .e,
    jumpRule_condJump .ne, jumpRule_condJump .ge, jumpRule_condJump .g⟩

end Sys2Proof.Claims
end

section
/-! The failures of a step (60_exceptions.md, R139): every instruction but call and pushq ends either with the latch as
it was or with its start state under another latch; those two have, under `reference`, one further end (R12). -/

namespace Sys2Proof.Claims

open Sys2Proof.Machine

/-! ## Precise failures -/

/-- R139 for one result: a next state, whose latch is as before or which is the start state but for its latch. -/
def FailsPrecisely (s : State) (r : Result) : Prop :=
  ∃ t, r = .next t ∧ (t.stat = s.stat ∨ t = s.setStat t.stat)

theorem failsPrecisely_of_completes {s t : State} {r : Result} (h : r = .next t) (hstat : t.stat = s.stat) :
    FailsPrecisely s r :=
  ⟨t, h, .inl hstat⟩

theorem failsPrecisely_of_raises {s : State} {r : Result} {e : Stat} (h : r = .next (s.setStat e)) :
    FailsPrecisely s r :=
  ⟨s.setStat e, h, .inr rfl⟩

/-- A result with one completed end and one raised end fails precisely. -/
theorem failsPrecisely_of_two_ends {s t : State} {r : Result} {e : Stat} {P Q : Prop}
    (h : P ∧ r = .next t ∨ Q ∧ r = .next (s.setStat e)) (hstat : t.stat = s.stat) : FailsPrecisely s r := by
  obtain ⟨-, hr⟩ | ⟨-, hr⟩ := h
  · exact failsPrecisely_of_completes hr hstat
  · exact failsPrecisely_of_raises hr

/-- A next state whose latch has changed is the start state but for its latch. -/
theorem FailsPrecisely.eq_setStat {s t : State} {r : Result} (h : FailsPrecisely s r) (hr : r = .next t)
    (hstat : t.stat ≠ s.stat) : t = s.setStat t.stat := by
  obtain ⟨u, hu, hstate⟩ := h
  obtain rfl : u = t := Host.Outcome.next.inj (hu.symm.trans hr)
  exact hstate.resolve_left hstat

/-! ## The shared meanings -/

theorem aluStep_failsPrecisely (f : AluFun) (rA rB : Reg) (s : State) : FailsPrecisely s (aluStep f rA rB s) :=
  failsPrecisely_of_two_ends (aluStep_cases f rA rB s).symm rfl

theorem moveStep_failsPrecisely (c : Cond) (rA rB : Reg) (s : State) : FailsPrecisely s (moveStep c rA rB s) := by
  obtain ⟨-, h⟩ | ⟨-, ⟨-, h⟩ | ⟨-, h⟩⟩ := moveStep_cases c rA rB s
  · exact failsPrecisely_of_raises h
  · exact failsPrecisely_of_completes h rfl
  · exact failsPrecisely_of_completes h rfl

theorem jumpStep_failsPrecisely (c : Cond) (v : Word) (s : State) : FailsPrecisely s (jumpStep c v s) :=
  failsPrecisely_of_two_ends (jumpStep_cases c v s).symm rfl

/-- What a call or a push whose store failed leaves under `reference` (R12): the pc it had written by then, and the
stack pointer it had decremented. -/
def pushFailed (s : State) (curPc : Word) : State :=
  ((s.setPc curPc).setReg spIndex s.pushSlot).setStat (.errMemOob s.pushSlot 8)

theorem pushFailed_fields (s : State) (curPc : Word) :
    (pushFailed s curPc).mem = s.mem ∧ SameFlags s (pushFailed s curPc) ∧ (pushFailed s curPc).params = s.params ∧
      (pushFailed s curPc).reg 4 = s.reg 4 - 8 ∧ SameRegsBut 4 s (pushFailed s curPc) ∧
      (pushFailed s curPc).pc = curPc :=
  ⟨rfl, ⟨rfl, rfl⟩, rfl, reg_setReg_same _ 4 _, sameRegsBut_setReg _ 4 _, rfl⟩

/-- The store that call and push share fails precisely, but for its end under `reference`. -/
theorem pushQuad_failsPrecisely_or (s : State) (curPc v nextPc : Word) :
    FailsPrecisely s (pushQuad s (s.setPc curPc) v nextPc) ∨
      s.params.stackFailMode = .reference ∧
        pushQuad s (s.setPc curPc) v nextPc = .next (pushFailed s curPc) := by
  obtain ⟨-, h⟩ | ⟨-, ⟨hmode, h⟩ | ⟨-, h⟩⟩ := pushQuad_cases s (s.setPc curPc) v nextPc rfl
  · exact .inl (failsPrecisely_of_completes h rfl)
  · exact .inr ⟨hmode, h⟩
  · exact .inl (failsPrecisely_of_raises h)

/-! ## Every instruction -/

/-- R139: an instruction fails precisely, or it is a call or a push in its end under `reference`. -/
theorem exec_failsPrecisely_or (i : Instr) (s : State) :
    FailsPrecisely s (exec i s) ∨
      s.params.stackFailMode = .reference ∧
        ((∃ fn v, i = .call fn v ∧ exec i s = .next (pushFailed s (s.pc + 9))) ∨
          ∃ fn rA ign, i = .pushq fn rA ign ∧ exec i s = .next (pushFailed s s.pc)) := by
  cases i with
  | call fn v =>
    obtain h | ⟨hmode, h⟩ := pushQuad_failsPrecisely_or s (s.pc + 9) (s.pc + 9) v
    · exact .inl h
    · exact .inr ⟨hmode, .inl ⟨fn, v, rfl, h⟩⟩
  | pushq fn rA ign =>
    obtain h | ⟨hmode, h⟩ := pushQuad_failsPrecisely_or s s.pc (s.pushValue rA) (s.pc + 2)
    · exact .inl h
    · exact .inr ⟨hmode, .inr ⟨fn, rA, ign, rfl, h⟩⟩
  | halt | registerMoveOther | illegalOpq | illegalJxx | illegalFamily =>
    exact .inl (failsPrecisely_of_raises rfl)
  | nop | irmovq =>
    exact .inl (failsPrecisely_of_completes rfl rfl)
  | addq rA rB => exact .inl (aluStep_failsPrecisely .add rA rB s)
  | subq rA rB => exact .inl (aluStep_failsPrecisely .sub rA rB s)
  | andq rA rB => exact .inl (aluStep_failsPrecisely .and rA rB s)
  | xorq rA rB => exact .inl (aluStep_failsPrecisely .xor rA rB s)
  | mulq rA rB => exact .inl (aluStep_failsPrecisely .mul rA rB s)
  | divq rA rB => exact .inl (aluStep_failsPrecisely .div rA rB s)
  | modq rA rB => exact .inl (aluStep_failsPrecisely .mod rA rB s)
  | rrmovq rA rB => exact .inl (moveStep_failsPrecisely .always rA rB s)
  | cmovle rA rB => exact .inl (moveStep_failsPrecisely .le rA rB s)
  | cmovl rA rB => exact .inl (moveStep_failsPrecisely .l rA rB s)
  | cmove rA rB => exact .inl (moveStep_failsPrecisely .e rA rB s)
  | cmovne rA rB => exact .inl (moveStep_failsPrecisely .ne rA rB s)
  | cmovge rA rB => exact .inl (moveStep_failsPrecisely .ge rA rB s)
  | cmovg rA rB => exact .inl (moveStep_failsPrecisely .g rA rB s)
  | jmp v => exact .inl (jumpStep_failsPrecisely .always v s)
  | jle v => exact .inl (jumpStep_failsPrecisely .le v s)
  | jl v => exact .inl (jumpStep_failsPrecisely .l v s)
  | je v => exact .inl (jumpStep_failsPrecisely .e v s)
  | jne v => exact .inl (jumpStep_failsPrecisely .ne v s)
  | jge v => exact .inl (jumpStep_failsPrecisely .ge v s)
  | jg v => exact .inl (jumpStep_failsPrecisely .g v s)
  | rmmovq fn rA rB d => exact .inl (failsPrecisely_of_two_ends (execRmmovq_cases fn rA rB d s) rfl)
  | mrmovq fn rA rB d => exact .inl (failsPrecisely_of_two_ends (execMrmovq_cases fn rA rB d s) rfl)
  | ret fn => exact .inl (failsPrecisely_of_two_ends (execRet_cases fn s) rfl)
  | popq fn rA ign =>
    obtain ⟨-, -, -, -, hstat, -⟩ := s.popInto_fields rA (s.mem.quad s.popSlot.toNat)
    exact .inl (failsPrecisely_of_two_ends (execPopq_cases fn rA ign s) hstat)

/-! ## The statement -/

/-- Settles O51: a decode-time error is raised in the start state, and a decoded instruction fails precisely or is one
of the two exceptions. -/
theorem failuresArePrecise : Obligations.FailuresArePrecise := by
  intro s t hs hstep hfail
  rw [← hs] at hfail
  obtain ⟨hn, -⟩ | ⟨-, ⟨i, rest, hdec, hexec⟩ | ⟨-, hnoByte⟩ | ⟨n, -, htruncated⟩⟩ := step_cases s
  · exact absurd hs hn
  · rw [hexec] at hstep
    obtain hprecise | ⟨hmode, ⟨fn, v, rfl, hpush⟩ | ⟨fn, rA, ign, rfl, hpush⟩⟩ := exec_failsPrecisely_or i s
    · exact .inl (hprecise.eq_setStat hstep hfail)
    · obtain rfl := Host.Outcome.next.inj (hpush.symm.trans hstep)
      obtain ⟨hmem, hflags, hparams, hsp, hregs, hpc⟩ := pushFailed_fields s (s.pc + 9)
      exact .inr ⟨hmode, hmem, hflags, hparams, hsp, hregs, .inl ⟨fn, v, rest, hdec, hpc⟩⟩
    · obtain rfl := Host.Outcome.next.inj (hpush.symm.trans hstep)
      obtain ⟨hmem, hflags, hparams, hsp, hregs, hpc⟩ := pushFailed_fields s s.pc
      exact .inr ⟨hmode, hmem, hflags, hparams, hsp, hregs, .inr ⟨fn, rA, ign, rest, hdec, hpc⟩⟩
  · exact .inl ((failsPrecisely_of_raises hnoByte).eq_setStat hstep hfail)
  · exact .inl ((failsPrecisely_of_raises htruncated).eq_setStat hstep hfail)

end Sys2Proof.Claims
end

section
/-! The instructions by family: three families are one meaning under a code (R68 to R70), so that a claim about every
instruction needs sixteen cases. -/

namespace Sys2Proof.Claims

open Sys2Proof.Machine

/-- A claim holds of every instruction when it holds of each operation's, each condition's, and each other one. -/
theorem instr_by_family {motive : Instr → Prop}
    (alu : ∀ f rA rB, motive (aluInstr f rA rB))
    (move : ∀ c rA rB v, motive (condMove c rA rB v))
    (jump : ∀ c v, motive (condJump c v))
    (halt : ∀ fn, motive (.halt fn))
    (nop : ∀ fn, motive (.nop fn))
    (moveOther : ∀ fn rA rB v, motive (.registerMoveOther fn rA rB v))
    (irmovq : ∀ fn ign rB v, motive (.irmovq fn ign rB v))
    (rmmovq : ∀ fn rA rB d, motive (.rmmovq fn rA rB d))
    (mrmovq : ∀ fn rA rB d, motive (.mrmovq fn rA rB d))
    (illegalOpq : ∀ fn, motive (.illegalOpq fn))
    (illegalJxx : ∀ fn, motive (.illegalJxx fn))
    (call : ∀ fn v, motive (.call fn v))
    (ret : ∀ fn, motive (.ret fn))
    (pushq : ∀ fn rA ign, motive (.pushq fn rA ign))
    (popq : ∀ fn rA ign, motive (.popq fn rA ign))
    (illegalFamily : ∀ icode fn, motive (.illegalFamily icode fn)) (i : Instr) : motive i := by
  cases i with
  | halt fn => exact halt fn
  | nop fn => exact nop fn
  | rrmovq rA rB v => exact move .always rA rB v
  | cmovle rA rB v => exact move .le rA rB v
  | cmovl rA rB v => exact move .l rA rB v
  | cmove rA rB v => exact move .e rA rB v
  | cmovne rA rB v => exact move .ne rA rB v
  | cmovge rA rB v => exact move .ge rA rB v
  | cmovg rA rB v => exact move .g rA rB v
  | registerMoveOther fn rA rB v => exact moveOther fn rA rB v
  | irmovq fn ign rB v => exact irmovq fn ign rB v
  | rmmovq fn rA rB d => exact rmmovq fn rA rB d
  | mrmovq fn rA rB d => exact mrmovq fn rA rB d
  | addq rA rB => exact alu .add rA rB
  | subq rA rB => exact alu .sub rA rB
  | andq rA rB => exact alu .and rA rB
  | xorq rA rB => exact alu .xor rA rB
  | mulq rA rB => exact alu .mul rA rB
  | divq rA rB => exact alu .div rA rB
  | modq rA rB => exact alu .mod rA rB
  | illegalOpq fn => exact illegalOpq fn
  | jmp v => exact jump .always v
  | jle v => exact jump .le v
  | jl v => exact jump .l v
  | je v => exact jump .e v
  | jne v => exact jump .ne v
  | jge v => exact jump .ge v
  | jg v => exact jump .g v
  | illegalJxx fn => exact illegalJxx fn
  | call fn v => exact call fn v
  | ret fn => exact ret fn
  | pushq fn rA ign => exact pushq fn rA ign
  | popq fn rA ign => exact popq fn rA ign
  | illegalFamily icode fn => exact illegalFamily icode fn

/-! ## Codes -/

/-- A checked code is an operation's (R68). -/
theorem exists_aluCode {fn : Nibble} (h : fn.toNat ≤ 6) : ∃ f, fn.toNat = aluCode f := by
  interval_cases fn.toNat
  exacts [⟨.add, rfl⟩, ⟨.sub, rfl⟩, ⟨.and, rfl⟩, ⟨.xor, rfl⟩, ⟨.mul, rfl⟩, ⟨.div, rfl⟩, ⟨.mod, rfl⟩]

/-- A checked code is a condition's (R69, R70). -/
theorem exists_condCode {fn : Nibble} (h : fn.toNat ≤ 6) : ∃ c, fn.toNat = condCode c := by
  interval_cases fn.toNat
  exacts [⟨.always, rfl⟩, ⟨.le, rfl⟩, ⟨.l, rfl⟩, ⟨.e, rfl⟩, ⟨.ne, rfl⟩, ⟨.ge, rfl⟩, ⟨.g, rfl⟩]

theorem opqLayout_aluCode {fn : Nibble} {f : AluFun} (h : fn.toNat = aluCode f) :
    opqLayout fn = bothRegs (aluInstr f) := by
  unfold opqLayout
  rw [h]
  cases f <;> rfl

theorem moveLayout_condCode {fn : Nibble} {c : Cond} (h : fn.toNat = condCode c) :
    moveLayout fn = bothRegsImm (condMove c) := by
  unfold moveLayout
  rw [h]
  cases c <;> rfl

theorem jumpLayout_condCode {fn : Nibble} {c : Cond} (h : fn.toNat = condCode c) :
    jumpLayout fn = .f9 (condJump c) := by
  unfold jumpLayout
  rw [h]
  cases c <;> rfl

theorem moveLayout_of_gt {fn : Nibble} (h : 6 < fn.toNat) :
    moveLayout fn = bothRegsImm (.registerMoveOther fn) := by
  have := fn.isLt
  unfold moveLayout
  interval_cases fn.toNat <;> rfl

theorem opcode_condMove (c : Cond) (rA rB : Reg) (v : Word) :
    (condMove c rA rB v).opcode = (0x2, BitVec.ofNat 4 (condCode c)) := by
  cases c <;> rfl

theorem opcode_condJump (c : Cond) (v : Word) : (condJump c v).opcode = (0x7, BitVec.ofNat 4 (condCode c)) := by
  cases c <;> rfl

end Sys2Proof.Claims
end

section
/-! The decoder and the encoder are inverse to each other (30_encoding.md): a layout completed by a register byte and an
8-byte value is the instruction with those fields, and decode is that completion of the layout byte 0 selects. -/

namespace Sys2Proof

/-! ## Completing a layout -/

/-- The instruction a layout makes of a register byte and an 8-byte value, given exactly those its format has (R62). -/
def Layout.fill : Layout → Option Byte → Option Word → Option Instr
  | .illegal i, none, none | .f1 i, none, none => some i
  | .f2 mk, some b1, none => some (mk (hiNibble b1) (loNibble b1))
  | .f9 mk, none, some v => some (mk v)
  | .f10 mk, some b1, some v => some (mk (hiNibble b1) (loNibble b1) v)
  | _, _, _ => none

/-- The bytes after byte 0 of a register byte and an 8-byte value (R62). -/
def fieldBytes (r : Option Byte) (v : Option Word) : List Byte := r.toList ++ (v.map quadBytes).getD []

theorem Layout.fill_f2 (mk : Nibble → Nibble → Instr) (a b : Nibble) :
    (Layout.f2 mk).fill (some (packByte a b)) none = some (mk a b) := by
  simp [Layout.fill]

theorem Layout.fill_f10 (mk : Nibble → Nibble → Word → Instr) (a b : Nibble) (v : Word) :
    (Layout.f10 mk).fill (some (packByte a b)) (some v) = some (mk a b v) := by
  simp [Layout.fill]

/-- The instruction is well formed and is encoded with the opcode `icode:fn` and these fields. -/
def Instr.EncodedAs (i : Instr) (icode fn : Nibble) (r : Option Byte) (v : Option Word) : Prop :=
  i.wellFormed = true ∧ i.opcode = (icode, fn) ∧ i.regByte = r ∧ i.imm = v

/-- Every completion of the layout is encoded with the opcode `icode:fn` and the fields it was made of. -/
def Layout.Encodes (l : Layout) (icode fn : Nibble) : Prop :=
  ∀ r v i, l.fill r v = some i → i.EncodedAs icode fn r v

section
variable {icode fn : Nibble}

theorem Layout.encodes_illegal {i : Instr} (h : i.EncodedAs icode fn none none) :
    (Layout.illegal i).Encodes icode fn := by
  rintro (_ | r) (_ | v) j hj <;> cases hj
  exact h

theorem Layout.encodes_f1 {i : Instr} (h : i.EncodedAs icode fn none none) :
    (Layout.f1 i).Encodes icode fn := by
  rintro (_ | r) (_ | v) j hj <;> cases hj
  exact h

theorem Layout.encodes_f2 {mk : Nibble → Nibble → Instr}
    (h : ∀ a b, (mk a b).EncodedAs icode fn (some (packByte a b)) none) : (Layout.f2 mk).Encodes icode fn := by
  rintro (_ | r) (_ | v) j hj <;> cases hj
  have := h (hiNibble r) (loNibble r)
  rwa [packByte_nibbles] at this

theorem Layout.encodes_f9 {mk : Word → Instr}
    (h : ∀ v, (mk v).EncodedAs icode fn none (some v)) : (Layout.f9 mk).Encodes icode fn := by
  rintro (_ | r) (_ | v) j hj <;> cases hj
  exact h v

theorem Layout.encodes_f10 {mk : Nibble → Nibble → Word → Instr}
    (h : ∀ a b v, (mk a b v).EncodedAs icode fn (some (packByte a b)) (some v)) :
    (Layout.f10 mk).Encodes icode fn := by
  rintro (_ | r) (_ | v) j hj <;> cases hj
  have := h (hiNibble r) (loNibble r) v
  rwa [packByte_nibbles] at this

end

end Sys2Proof

namespace Sys2Proof.Claims

open Sys2Proof.Machine

/-- A nibble is the one of its number. -/
theorem nibble_eq_ofNat {fn : Nibble} {n : Nat} (h : fn.toNat = n) : fn = BitVec.ofNat 4 n := by
  rw [← h, BitVec.ofNat_toNat, BitVec.setWidth_eq]

theorem encodes_moveLayout (fn : Nibble) : (moveLayout fn).Encodes 0x2 fn := by
  obtain h | h := Nat.lt_or_ge 6 fn.toNat
  · rw [moveLayout_of_gt h]
    exact Layout.encodes_f10 fun _ _ _ => ⟨decide_eq_true h, rfl, rfl, rfl⟩
  · obtain ⟨c, hc⟩ := exists_condCode h
    rw [moveLayout_condCode hc, nibble_eq_ofNat hc]
    refine Layout.encodes_f10 fun _ _ _ => ?_
    cases c <;> exact ⟨rfl, rfl, rfl, rfl⟩

theorem encodes_opqLayout (fn : Nibble) : (opqLayout fn).Encodes 0x6 fn := by
  obtain h | h := Nat.lt_or_ge 6 fn.toNat
  · rw [opqLayout_of_gt h]
    exact Layout.encodes_illegal ⟨decide_eq_true h, rfl, rfl, rfl⟩
  · obtain ⟨f, hf⟩ := exists_aluCode h
    rw [opqLayout_aluCode hf, nibble_eq_ofNat hf]
    refine Layout.encodes_f2 fun _ _ => ?_
    cases f <;> exact ⟨rfl, rfl, rfl, rfl⟩

theorem encodes_jumpLayout (fn : Nibble) : (jumpLayout fn).Encodes 0x7 fn := by
  obtain h | h := Nat.lt_or_ge 6 fn.toNat
  · rw [jumpLayout_of_gt h]
    exact Layout.encodes_illegal ⟨decide_eq_true h, rfl, rfl, rfl⟩
  · obtain ⟨c, hc⟩ := exists_condCode h
    rw [jumpLayout_condCode hc, nibble_eq_ofNat hc]
    refine Layout.encodes_f9 fun _ => ?_
    cases c <;> exact ⟨rfl, rfl, rfl, rfl⟩

/-- The opcode map gives each opcode a layout of that opcode's instructions (R61, R70, R74, R75). -/
theorem encodes_layout (icode fn : Nibble) : (layout icode fn).Encodes icode fn := by
  obtain h | h := Nat.lt_or_ge icode.toNat 0xC
  · generalize hn : icode.toNat = n at h
    obtain rfl := nibble_eq_ofNat hn
    clear hn
    interval_cases n
    · exact Layout.encodes_f1 ⟨rfl, rfl, rfl, rfl⟩
    · exact Layout.encodes_f1 ⟨rfl, rfl, rfl, rfl⟩
    · exact encodes_moveLayout fn
    · exact Layout.encodes_f10 fun _ _ _ => ⟨rfl, rfl, rfl, rfl⟩
    · exact Layout.encodes_f10 fun _ _ _ => ⟨rfl, rfl, rfl, rfl⟩
    · exact Layout.encodes_f10 fun _ _ _ => ⟨rfl, rfl, rfl, rfl⟩
    · exact encodes_opqLayout fn
    · exact encodes_jumpLayout fn
    · exact Layout.encodes_f9 fun _ => ⟨rfl, rfl, rfl, rfl⟩
    · exact Layout.encodes_f1 ⟨rfl, rfl, rfl, rfl⟩
    · exact Layout.encodes_f2 fun _ _ => ⟨rfl, rfl, rfl, rfl⟩
    · exact Layout.encodes_f2 fun _ _ => ⟨rfl, rfl, rfl, rfl⟩
  · rw [layout_of_illegalFamily h]
    exact Layout.encodes_illegal ⟨decide_eq_true h, rfl, rfl, rfl⟩

/-- The opcode of a well-formed instruction has the layout that the instruction's own fields complete to it. -/
theorem fill_layout_of_wellFormed {i : Instr} (h : i.wellFormed = true) :
    (layout i.opcode.1 i.opcode.2).fill i.regByte i.imm = some i := by
  cases i using instr_by_family with
  | alu f rA rB => cases f <;> exact Layout.fill_f2 _ (regNibble rA) (regNibble rB)
  | move c rA rB v => cases c <;> exact Layout.fill_f10 _ (regNibble rA) (regNibble rB) v
  | jump c v => cases c <;> rfl
  | halt | nop | call | ret => rfl
  | moveOther fn rA rB v =>
    have hl : layout 0x2 fn = bothRegsImm (.registerMoveOther fn) := moveLayout_of_gt (of_decide_eq_true h)
    exact hl ▸ Layout.fill_f10 _ (regNibble rA) (regNibble rB) v
  | irmovq fn ign rB v => exact Layout.fill_f10 _ ign (regNibble rB) v
  | rmmovq fn rA rB d => exact Layout.fill_f10 _ (regNibble rA) (regNibble rB) d
  | mrmovq fn rA rB d => exact Layout.fill_f10 _ (regNibble rA) (regNibble rB) d
  | pushq fn rA ign => exact Layout.fill_f2 _ (regNibble rA) ign
  | popq fn rA ign => exact Layout.fill_f2 _ (regNibble rA) ign
  | illegalOpq fn =>
    have hl : layout 0x6 fn = .illegal (.illegalOpq fn) := opqLayout_of_gt (of_decide_eq_true h)
    exact hl ▸ rfl
  | illegalJxx fn =>
    have hl : layout 0x7 fn = .illegal (.illegalJxx fn) := jumpLayout_of_gt (of_decide_eq_true h)
    exact hl ▸ rfl
  | illegalFamily icode fn => exact layout_of_illegalFamily (of_decide_eq_true h) fn ▸ rfl

/-- The opcode map and the encoder agree: what completes an opcode's layout is exactly the well-formed instruction with
that opcode and those fields. -/
theorem fill_layout_iff {icode fn : Nibble} {r : Option Byte} {v : Option Word} {i : Instr} :
    (layout icode fn).fill r v = some i ↔ i.EncodedAs icode fn r v := by
  refine ⟨encodes_layout icode fn r v i, ?_⟩
  rintro ⟨hwf, hop, rfl, rfl⟩
  rw [← fill_layout_of_wellFormed hwf, hop]

/-! ## Decoding -/

/-- Bytes that complete the layout of byte 0 decode to the completion (R72). -/
theorem decode_of_fill {b0 : Byte} {r : Option Byte} {v : Option Word} {i : Instr}
    (h : (layout (hiNibble b0) (loNibble b0)).fill r v = some i) (rest : List Byte) :
    decode (b0 :: (fieldBytes r v ++ rest)) = .ok i rest := by
  cases hl : layout (hiNibble b0) (loNibble b0) with rw [hl] at h
  | illegal | f1 | f2 | f9 | f10 =>
    obtain _ | b1 := r <;> obtain _ | v := v <;> cases h
    simp [decode, hl, fieldBytes]

/-- What decodes is byte 0, fields that complete its layout, and the rest. -/
theorem fill_of_decode {b0 : Byte} {bs rest : List Byte} {i : Instr} (h : decode (b0 :: bs) = .ok i rest) :
    ∃ r v, bs = fieldBytes r v ++ rest ∧ (layout (hiNibble b0) (loNibble b0)).fill r v = some i := by
  cases hl : layout (hiNibble b0) (loNibble b0) with simp only [decode, hl] at h
  | illegal j | f1 j =>
    cases h
    exact ⟨none, none, rfl, rfl⟩
  | f2 mk =>
    cases bs with
    | nil => cases h
    | cons b1 bs =>
      cases h
      exact ⟨some b1, none, rfl, rfl⟩
  | f9 mk =>
    obtain ⟨v, bs', hq, rfl⟩ | ⟨hq, -⟩ := takeQuad_cases bs <;> rw [hq] at h <;> cases h
    exact ⟨none, some v, rfl, rfl⟩
  | f10 mk =>
    cases bs with
    | nil => cases h
    | cons b1 bs =>
      obtain ⟨v, bs', hq, rfl⟩ | ⟨hq, -⟩ := takeQuad_cases bs <;> simp only [hq] at h <;> cases h
      exact ⟨some b1, some v, rfl, rfl⟩

/-- Decode inverts encode on the well-formed instructions, and answers no others (30_encoding.md sections 2 and 6). -/
theorem decode_eq_ok_iff {bs rest : List Byte} {i : Instr} :
    decode bs = .ok i rest ↔ i.wellFormed = true ∧ encode i ++ rest = bs := by
  constructor
  · intro h
    cases bs with
    | nil => cases h
    | cons b0 bs =>
      obtain ⟨r, v, rfl, hfill⟩ := fill_of_decode h
      obtain ⟨hwf, hop, rfl, rfl⟩ := fill_layout_iff.1 hfill
      refine ⟨hwf, ?_⟩
      rw [encode, hop, packByte_nibbles]
      rfl
  · rintro ⟨hwf, rfl⟩
    refine decode_of_fill ?_ rest
    rw [hiNibble_packByte, loNibble_packByte]
    exact fill_layout_of_wellFormed hwf

/-! ## Lengths -/

/-- An instruction is as long as its encoding (R62, R81). -/
@[simp] theorem length_encode (i : Instr) : (encode i).length = i.length := by
  unfold encode Instr.length
  cases i.regByte <;> cases i.imm <;> rfl

theorem instr_length_le (i : Instr) : i.length ≤ maxInstrLength := by
  unfold Instr.length maxInstrLength
  split <;> split <;> omega

/-- A completion is as long as its layout (R62). -/
theorem length_of_fill {l : Layout} {r : Option Byte} {v : Option Word} {i : Instr} (h : l.fill r v = some i) :
    l.length = 1 + (if r.isSome then 1 else 0) + (if v.isSome then 8 else 0) := by
  cases l <;> cases r <;> cases v <;> cases h <;> rfl

/-- R81: an instruction is as long as the layout of its opcode. -/
theorem length_layout_of_wellFormed {i : Instr} (h : i.wellFormed = true) :
    (layout i.opcode.1 i.opcode.2).length = i.length :=
  length_of_fill (fill_layout_of_wellFormed h)

/-! ## The statements -/

/-- Settles O2: a well-formed instruction's opcode has the layout that its own fields complete. -/
theorem decodeOfEncode : Obligations.DecodeOfEncode := fun _ _ hwf =>
  decode_eq_ok_iff.2 ⟨hwf, rfl⟩

/-- Settles O3: every completion of an opcode's layout is a well-formed instruction with that opcode and the fields it
was made of. -/
theorem encodeOfDecode : Obligations.EncodeOfDecode := fun _ _ _ =>
  decode_eq_ok_iff.1

/-- Settles O4: the instruction, its encoding and its opcode's layout are equally long, and a legal layout's length is
the table's. -/
theorem lengthByHighNibble : Obligations.LengthByHighNibble := by
  intro i hwf b0 bs henc hlegal
  obtain ⟨rfl, -⟩ := List.cons.inj henc
  have hlen := length_layout_of_legal hlegal
  rw [hiNibble_packByte, loNibble_packByte, length_layout_of_wellFormed hwf] at hlen
  rw [length_encode]
  exact ⟨hlen, hlen⟩

end Sys2Proof.Claims
end

section
/-! Fetching an instruction whose bytes lie in memory, the step that runs it (R86, R87), and the step as the spec's own
fetch, decode and dispatch cycle (30_encoding.md section 5, 40_cycle_dispatch.md). -/

namespace Sys2Proof.Machine

/-! ## Strings of bytes in memory -/

theorem Memory.readBytes_add (m : Memory) (a n k : Nat) :
    m.readBytes a (n + k) = m.readBytes a n ++ m.readBytes (a + n) k := by
  induction n generalizing a with
  | zero => simp [Memory.readBytes]
  | succ n ih =>
    rw [Nat.add_right_comm, Memory.readBytes, ih, Memory.readBytes, Nat.add_right_comm a 1 n]
    rfl

/-- Eight consecutive bytes are those of the quadword there (R45). -/
theorem Memory.readBytes_eight (m : Memory) (a : Nat) : m.readBytes a 8 = quadBytes (m.quad a) := by
  rw [Memory.quad, quadBytes_leQuad]
  rfl

/-- A string that stands in memory is read there. -/
theorem Memory.readBytes_eq {m : Memory} {a : Nat} {bs : List Byte}
    (h : ∀ k (hk : k < bs.length), m.read (a + k) = bs[k]) : m.readBytes a bs.length = bs :=
  List.ext_getElem (by simp) fun k hk _ => by rw [Memory.getElem_readBytes, h]

theorem Memory.readBytes_writeBytes (m : Memory) (a : Nat) (bs : List Byte) :
    (m.writeBytes a bs).readBytes a bs.length = bs :=
  Memory.readBytes_eq fun _ hk => Memory.read_writeBytes_inside hk

/-! ## The bytes fetched -/

theorem State.valP_toNat (s : State) (n : Nat) : (s.valP n).toNat = (s.pc.toNat + n) % 2 ^ 64 := by
  simp [State.valP, BitVec.toNat_add]

/-- Up to ten bytes that lie in memory are the first ones fetched. -/
theorem State.fetchBytes_eq_append {s : State} {n : Nat} (hn : n ≤ maxInstrLength)
    (h : s.pc.toNat + n ≤ s.params.memSize) : ∃ rest, s.fetchBytes = s.mem.readBytes s.pc.toNat n ++ rest := by
  obtain ⟨k, hk⟩ : ∃ k, min maxInstrLength (s.params.memSize - s.pc.toNat) = n + k :=
    Nat.exists_eq_add_of_le (by omega)
  exact ⟨_, by rw [State.fetchBytes, hk, Memory.readBytes_add]⟩

@[simp] theorem length_natBytes (n w : Nat) : (natBytes n w).length = n := by
  induction n generalizing w with
  | zero => rfl
  | succ n ih => rw [natBytes, List.length_cons, ih]

theorem length_tableWordBytes (nbits w : Nat) : (tableWordBytes nbits w).length = maxInstrLength :=
  length_natBytes _ _

/-- Where ten bytes fit at the pc, the word placed there is what is fetched (log entry 5). -/
theorem State.fetchBytes_withFetchWord {s : State} (nbits w : Nat)
    (h : s.pc.toNat + maxInstrLength ≤ s.params.memSize) :
    (s.withFetchWord nbits w).fetchBytes = tableWordBytes nbits w := by
  have hread := Memory.readBytes_writeBytes s.mem s.pc.toNat (tableWordBytes nbits w)
  rw [length_tableWordBytes] at hread
  have htake : (tableWordBytes nbits w).take (s.params.memSize - s.pc.toNat) = tableWordBytes nbits w :=
    List.take_of_length_le (by rw [length_tableWordBytes]; omega)
  have hmin : min maxInstrLength (s.params.memSize - s.pc.toNat) = maxInstrLength := Nat.min_eq_left (by omega)
  simp only [State.fetchBytes, State.withFetchWord, State.placeBytes, State.setStat_mem, State.setStat_pc,
    State.setStat_params, State.setMem_mem, State.setMem_pc, State.setMem_params, htake, hmin, hread]

theorem decode_of_decodeTableWord {nbits w : Nat} {i : Instr} (h : decodeTableWord nbits w = some i) :
    ∃ rest, decode (tableWordBytes nbits w) = .ok i rest := by
  unfold decodeTableWord at h
  cases hd : decode (tableWordBytes nbits w) with rw [hd] at h
  | ok j rest =>
    cases h
    exact ⟨rest, rfl⟩
  | noByte => cases h
  | truncated n => cases h

end Sys2Proof.Machine

namespace Sys2Proof

open Sys2Proof.Machine

/-- The instruction a layout makes of the bytes that follow the opcode byte at `a` (R64, R66). -/
def Layout.readFrom (m : Memory) (a : Nat) : Layout → Instr
  | .illegal i | .f1 i => i
  | .f2 mk => mk (hiNibble (m.read (a + 1))) (loNibble (m.read (a + 1)))
  | .f9 mk => mk (m.quad (a + 1))
  | .f10 mk => mk (hiNibble (m.read (a + 1))) (loNibble (m.read (a + 1))) (m.quad (a + 2))

theorem Layout.length_le (l : Layout) : l.length ≤ maxInstrLength := by
  cases l <;> simp [Layout.length, maxInstrLength]

/-- The bytes in memory that a layout takes up complete it. -/
theorem Layout.exists_fill (l : Layout) (m : Memory) (a : Nat) :
    ∃ r v, m.readBytes a l.length = m.read a :: fieldBytes r v ∧ l.fill r v = some (l.readFrom m a) := by
  cases l with
  | illegal i | f1 i => exact ⟨none, none, rfl, rfl⟩
  | f2 mk => exact ⟨some _, none, rfl, rfl⟩
  | f9 mk => exact ⟨none, some _, congrArg (m.read a :: ·) (m.readBytes_eight (a + 1)), rfl⟩
  | f10 mk =>
    exact ⟨some _, some _, congrArg (m.read a :: m.read (a + 1) :: ·) (m.readBytes_eight (a + 2)), rfl⟩

end Sys2Proof

namespace Sys2Proof.Claims

open Sys2Proof.Machine

/-- The layout the opcode byte at the pc selects (R61). -/
def layoutAtPc (s : State) : Layout :=
  layout (hiNibble (s.mem.read s.pc.toNat)) (loNibble (s.mem.read s.pc.toNat))

/-- An instruction that lies in memory up to its last byte decodes (R72). -/
theorem decode_fetchBytes_of_fits {s : State} (h : s.pc.toNat + (layoutAtPc s).length ≤ s.params.memSize) :
    ∃ rest, decode s.fetchBytes = .ok ((layoutAtPc s).readFrom s.mem s.pc.toNat) rest := by
  obtain ⟨rest, hfetch⟩ := State.fetchBytes_eq_append (layoutAtPc s).length_le h
  obtain ⟨r, v, hread, hfill⟩ := (layoutAtPc s).exists_fill s.mem s.pc.toNat
  refine ⟨rest, ?_⟩
  rw [hfetch, hread]
  exact decode_of_fill hfill rest

/-- R86: a step runs the instruction whose bytes stand at the pc, whatever follows them. -/
theorem step_of_instrAtPc {s : State} {i : Instr} (hs : s.stat = .aok) (hwf : i.wellFormed = true)
    (hi : InstrAtPc s i) : step s = exec i s := by
  obtain ⟨hfits, hbytes⟩ := hi
  obtain ⟨rest, hfetch⟩ := State.fetchBytes_eq_append (instr_length_le i) hfits
  rw [← length_encode, Memory.readBytes_eq hbytes] at hfetch
  exact step_of_decode_ok hs (decode_eq_ok_iff.2 ⟨hwf, hfetch.symm⟩)

/-! ## The fetch/decode unit on a legal instruction that fits -/

/-- The decoded instruction of the bytes at the pc when the opcode byte is `icode:fn` (R79). -/
def decodedAs (icode fn : Nibble) (s : State) : Decoded where
  icode := icode
  ifun := fn
  rA := (designators icode (s.mem.read (s.pc.toNat + 1))).1
  rB := (designators icode (s.mem.read (s.pc.toNat + 1))).2
  valC := decodedValC s.mem s.pc.toNat (tableLength icode.toNat)
  start := s.pc
  valP := s.valP (tableLength icode.toNat)

/-- The decoded instruction of the bytes at the pc. -/
def decodedAtPc (s : State) : Decoded :=
  decodedAs (hiNibble (s.mem.read s.pc.toNat)) (loNibble (s.mem.read s.pc.toNat)) s

theorem tableLength_pos {n : Nat} (h : n < 0xC) : 0 < tableLength n := by
  interval_cases n <;> decide

/-- R72: no check fails, so the unit answers the decoded instruction. -/
theorem fdu_of_fits {s : State} (hlegal : ¬ IllegalByte (s.mem.read s.pc.toNat))
    (hfits : s.pc.toNat + tableLength ((s.mem.read s.pc.toNat).toNat / 16) ≤ s.params.memSize) :
    fdu s = .decoded (decodedAtPc s) (hiNibble (s.mem.read s.pc.toNat) != 0x0) := by
  rw [illegalByte_iff, not_or, Nat.not_le] at hlegal
  obtain ⟨hfam, hcode⟩ := hlegal
  rw [← hiNibble_toNat] at hfits
  have hpos := tableLength_pos hfam
  obtain ⟨hread, -⟩ := readPrimitives s s.pc
  simp only [fdu, hread (by omega), lengthOf_eq, if_pos hfam, if_neg hcode, if_neg (Nat.not_lt.2 hfits)]
  rfl

theorem map_val_designators_fst (icode : Nibble) (b1 : Byte) :
    (designators icode b1).1.map (·.val) =
      if icode.toNat ∈ [2, 4, 5, 6, 0xA, 0xB] then some (b1.toNat / 16) else none := by
  have := icode.isLt
  unfold designators
  interval_cases icode.toNat <;> simp [hiNibble_toNat]

theorem map_val_designators_snd (icode : Nibble) (b1 : Byte) :
    (designators icode b1).2.map (·.val) =
      if icode.toNat ∈ [2, 3, 4, 5, 6] then some (b1.toNat % 16) else none := by
  have := icode.isLt
  unfold designators
  interval_cases icode.toNat <;> simp [loNibble_toNat]

theorem decodedValC_toNat (m : Memory) (a : Nat) {n : Nat} (h : n < 0xC) :
    (decodedValC m a (tableLength n)).toNat =
      if n ∈ [2, 3, 4, 5] then quadValue m (a + 2) else if n ∈ [7, 8] then quadValue m (a + 1) else 0 := by
  interval_cases n <;> simp [decodedValC, tableLength, Memory.quad_toNat, quadValue]

theorem nibble_bne_zero (n : Nibble) : (n != 0x0) = (n.toNat != 0) := by
  revert n; decide

/-! ## Dispatch -/

/-- The move that the unit finds for a code is the one of the code's layout (R70). -/
theorem moveLayout_eq_moveInstr (fn : Nibble) : moveLayout fn = bothRegsImm (moveInstr fn) := by
  have := fn.isLt
  unfold moveLayout moveInstr
  interval_cases fn.toNat <;> rfl

/-- The operation that the unit finds for a checked code is the one of the code's layout (R68). -/
theorem exists_opqInstr {fn : Nibble} (h : fn.toNat ≤ 6) :
    ∃ mk, opqLayout fn = bothRegs mk ∧ ∀ a b, opqInstr fn a b = some (mk a b) := by
  unfold opqLayout opqInstr
  interval_cases fn.toNat <;> exact ⟨_, rfl, fun _ _ => rfl⟩

/-- The jump that the unit finds for a checked code is the one of the code's layout (R69). -/
theorem exists_jumpInstr {fn : Nibble} (h : fn.toNat ≤ 6) :
    ∃ mk, jumpLayout fn = .f9 mk ∧ ∀ v, jumpInstr fn v = some (mk v) := by
  unfold jumpLayout jumpInstr
  interval_cases fn.toNat <;> exact ⟨_, rfl, fun _ => rfl⟩

/-- A family that is dispatched has its unit, and the unit finds in `D` the instruction at the pc but for a nibble that
decode ignores and exec does not read (R64, R89). -/
theorem dispatch_decodedAs {icode fn : Nibble} (s : State) (hfam : icode.toNat < 0xC)
    (hcode : ¬ ((icode = 0x6 ∨ icode = 0x7) ∧ 6 < fn.toNat)) (hhalt : icode ≠ 0x0) :
    ∃ u i, dispatchUnit icode = some u ∧ (decodedAs icode fn s).instr = some i ∧
      exec i s = exec ((layout icode fn).readFrom s.mem s.pc.toNat) s := by
  generalize hn : icode.toNat = n at hfam
  obtain rfl := nibble_eq_ofNat hn
  clear hn
  interval_cases n
  -- A family whose layout does not depend on the code is looked up; 0x0, 0x2, 0x6 and 0x7 are left, in this order.
  any_goals (refine ⟨_, _, rfl, rfl, ?_⟩; rfl)
  · exact absurd rfl hhalt
  · have hl : layout 2#4 fn = bothRegsImm (moveInstr fn) := moveLayout_eq_moveInstr fn
    refine ⟨_, _, rfl, rfl, ?_⟩
    rw [hl]
    rfl
  · obtain ⟨mk, hmkl, hmk⟩ := exists_opqInstr (fn := fn) (by simpa using hcode)
    have hl : layout 6#4 fn = bothRegs mk := hmkl
    refine ⟨_, _, rfl, hmk _ _, ?_⟩
    rw [hl]
    rfl
  · obtain ⟨mk, hmkl, hmk⟩ := exists_jumpInstr (fn := fn) (by simpa using hcode)
    have hl : layout 7#4 fn = .f9 mk := hmkl
    refine ⟨_, _, rfl, hmk _, ?_⟩
    rw [hl]
    rfl

/-- The cycle on a legal instruction that fits: decode answers, and what is dispatched means the instruction. -/
theorem cycle_of_fits {s : State} (hlegal : ¬ IllegalByte (s.mem.read s.pc.toNat))
    (hfits : s.pc.toNat + tableLength ((s.mem.read s.pc.toNat).toNat / 16) ≤ s.params.memSize) :
    cycle s = exec ((layoutAtPc s).readFrom s.mem s.pc.toNat) s := by
  unfold cycle
  rw [fdu_of_fits hlegal hfits]
  rw [illegalByte_iff, not_or, Nat.not_le] at hlegal
  obtain ⟨hfam, hcode⟩ := hlegal
  by_cases hhalt : hiNibble (s.mem.read s.pc.toNat) = 0x0
  · unfold layoutAtPc
    rw [hhalt]
    rfl
  · obtain ⟨u, i, hu, hi, hexec⟩ := dispatch_decodedAs s hfam hcode hhalt
    have hu : dispatchUnit (decodedAtPc s).icode = some u := hu
    have hi : (decodedAtPc s).instr = some i := hi
    simp only [bne_iff_ne.2 hhalt, hu, unitExecute, hi, if_true, hexec]
    rfl

theorem cycle_of_fail {s : State} {e : Stat} (h : fdu s = .fail e) : cycle s = .next (s.setStat e) := by
  simp only [cycle, h, State.raise]

/-! ## The statements -/

/-- Settles O7: the decode failures are the unit's, in the order of R72, and on a legal instruction that fits, the step
and the cycle both run what the opcode byte's layout makes of the bytes. -/
theorem stepIsTheCycle : Obligations.StepIsTheCycle := by
  intro s hs
  obtain hpc | hpc := Nat.lt_or_ge s.pc.toNat s.params.memSize
  · obtain hillegal | hlegal := Classical.em (IllegalByte (s.mem.read s.pc.toNat))
    · obtain ⟨hfdu, hstep⟩ := illegalByteIsInvalid s _ hs hpc rfl hillegal
      exact hstep.trans (cycle_of_fail hfdu).symm
    · obtain hshort | hfits := Nat.lt_or_ge s.params.memSize
        (s.pc.toNat + tableLength ((s.mem.read s.pc.toNat).toNat / 16))
      · obtain ⟨hfdu, hstep⟩ := truncatedInstruction s _ hs hpc rfl hlegal hshort
        exact hstep.trans (cycle_of_fail hfdu).symm
      · rw [cycle_of_fits hlegal hfits]
        rw [← length_layout_of_legal hlegal] at hfits
        obtain ⟨rest, hdec⟩ := decode_fetchBytes_of_fits hfits
        exact step_of_decode_ok hs hdec
  · obtain ⟨-, hfdu, hstep⟩ := fetchOutOfBounds s hs hpc
    exact hstep.trans (cycle_of_fail hfdu).symm

/-- Settles O12: the fields that the unit's decoded instruction is made of, by the family of the opcode byte. -/
theorem decodedFields : Obligations.DecodedFields := by
  rintro s _ _ rfl rfl hlegal hfits
  have hfam : (hiNibble (s.mem.read s.pc.toNat)).toNat < 0xC :=
    Nat.not_le.1 fun hge => hlegal ((illegalByte_iff _).2 (.inl hge))
  refine ⟨decodedAtPc s, ?_, ?_⟩
  · rw [fdu_of_fits hlegal hfits, ← hiNibble_toNat, nibble_bne_zero]
  · rw [← hiNibble_toNat, ← loNibble_toNat]
    exact ⟨rfl, rfl, map_val_designators_fst _ _, map_val_designators_snd _ _, decodedValC_toNat _ _ hfam,
      rfl, State.valP_toNat _ _⟩

/-- Settles O5: the step adds nothing around the meaning of what it decodes. -/
theorem stepRunsTheDecodedInstruction : Obligations.StepRunsTheDecodedInstruction := fun _ _ _ hs hd =>
  step_of_decode_ok hs hd

/-- Settles O6: the bytes fetched begin with the instruction's encoding, which decode inverts. -/
theorem stepRunsTheInstructionInMemory : Obligations.StepRunsTheInstructionInMemory := fun _ _ hs hwf hi =>
  step_of_instrAtPc hs hwf hi

/-- Settles O8: by induction on the steps to the state reached, none of which can start at the final state. -/
theorem finalStatesAreStuck : Obligations.FinalStatesAreStuck := by
  intro s hs
  have hstop : step s = .fault (.stopped s.stat) := if_neg hs
  refine ⟨hstop, fun t ht => ?_⟩
  induction ht with
  | start => rfl
  | more _ hstep ih =>
    rw [ih, hstop] at hstep
    cases hstep

/-- Settles O13: the unit compares the dispatch of the family with itself before anything else. -/
theorem unitRejectsOtherFamilies : Obligations.UnitRejectsOtherFamilies := fun _ _ s h =>
  unitExecute_of_dispatchUnit_ne h s

/-- Settles O59: the ten bytes placed are the ten fetched. -/
theorem placedWordRuns : Obligations.PlacedWordRuns := by
  intro s nbits w i hfits hdec
  obtain ⟨rest, hok⟩ := decode_of_decodeTableWord hdec
  rw [← State.fetchBytes_withFetchWord nbits w hfits] at hok
  exact step_of_decode_ok rfl hok

end Sys2Proof.Claims
end

section
/-! What an instruction can do to each part of the state, said once for all of them: the registers it may write (R25),
the quadword it may store (R46), the flags (R32, R94), the latch with the causes of each outcome (R136), and the
parameters. The frame statements and the invariants of a step follow. -/

namespace Sys2Proof.Claims

open Sys2Proof.Machine

/-! ## What an instruction can do -/

/-- The address of the quadword an instruction reads or stores, if it is one that does (R136). -/
def accessAddr : Instr → State → Option Word
  | .rmmovq _ _ b d, s | .mrmovq _ _ b d, s => some (s.reg b + d)
  | .call _ _, s | .pushq _ _ _, s => some (s.reg 4 - 8)
  | .ret _, s | .popq _ _ _, s => some (s.reg 4)
  | _, _ => none

/-- The latch values that running an instruction can set, each with its cause (R136). -/
def Raises (i : Instr) (s : State) : Stat → Prop
  | .hlt => i.opcode.1 = 0x0
  | .errInvalid p b => p = s.pc ∧ b = packByte i.opcode.1 i.opcode.2 ∧ (i.wellFormed = true → IllegalByte b)
  | .errMemOob a w => w = 8 ∧ s.params.memSize < a.toNat + 8 ∧ accessAddr i s = some a
  | .errUnrecognized p => p = s.pc ∧
    (i.opcode.1 = 0x7 ∧ s.params.moveJumpExec = .fault ∨
      i.opcode.1 = 0x2 ∧ (s.params.moveJumpExec = .fault ∨ (i.wellFormed = true → 6 < i.opcode.2.toNat)))
  | .errDivZero p => p = s.pc ∧ ∃ rA rB, s.reg rA = 0 ∧ (i = .divq rA rB ∨ i = .modq rA rB)
  | .aok | .errFetchOob _ | .errTruncated _ _ => False

/-- What `t` can be when running `i` in `s` leaves it, part by part. -/
structure InRow (i : Instr) (s t : State) : Prop where
  stat : t.stat = s.stat ∨ Raises i s t.stat
  flags : SameFlags s t ∨
    Instr.isOpq i = true ∧ t.stat = s.stat ∧ ∃ r, t.zf = zeroFlag r ∧ t.sf = signFlag r
  regs : ∀ q, q ∉ mayWrite i → t.reg q = s.reg q
  mem : t.mem = s.mem ∨ ∃ w v, storeAddr i s = some w ∧ w.toNat + 8 ≤ s.params.memSize ∧
    t.mem = s.mem.writeBytes w.toNat (quadBytes v)
  params : t.params = s.params

/-- The result is a next state within the instruction's row. -/
def StaysInRow (i : Instr) (s : State) (r : Result) : Prop := ∃ t, r = .next t ∧ InRow i s t

theorem inRow_setStat {i : Instr} {s : State} {e : Stat} (h : Raises i s e) : InRow i s (s.setStat e) :=
  ⟨.inr h, .inl ⟨rfl, rfl⟩, fun _ _ => rfl, .inl rfl, rfl⟩

/-- A result with one completed end and one raised end stays in the row when both do. -/
theorem staysInRow_of_two_ends {i : Instr} {s t : State} {r : Result} {e : Stat} {P Q : Prop}
    (h : P ∧ r = .next t ∨ Q ∧ r = .next (s.setStat e)) (hP : P → InRow i s t) (hQ : Q → Raises i s e) :
    StaysInRow i s r := by
  obtain ⟨hp, hr⟩ | ⟨hq, hr⟩ := h
  · exact ⟨t, hr, hP hp⟩
  · exact ⟨_, hr, inRow_setStat (hQ hq)⟩

theorem reg_setReg_of_notMem {l : List Reg} {q r : Reg} (hq : q ∉ l) (hr : r ∈ l) (s : State) (v : Word) :
    (s.setReg r v).reg q = s.reg q := by
  rw [State.reg_setReg, if_neg]
  rintro rfl
  exact hq hr

/-! ## The shared meanings -/

theorem eq_zero_of_aluDivZero {f : AluFun} {a : Word} (h : aluDivZero f a = true) :
    a = 0 ∧ (f = .div ∨ f = .mod) := by
  cases f with
  | div => exact ⟨of_decide_eq_true h, .inl rfl⟩
  | mod => exact ⟨of_decide_eq_true h, .inr rfl⟩
  | add | sub | and | xor | mul => cases h

theorem mayWrite_aluInstr (f : AluFun) (rA rB : Reg) : mayWrite (aluInstr f rA rB) = [rB] := by
  cases f <;> rfl

theorem isOpq_aluInstr (f : AluFun) (rA rB : Reg) : Instr.isOpq (aluInstr f rA rB) = true := by
  cases f <;> rfl

theorem mayWrite_condMove (c : Cond) (rA rB : Reg) (v : Word) : mayWrite (condMove c rA rB v) = [rB] := by
  cases c <;> rfl

theorem aluStep_staysInRow (f : AluFun) (rA rB : Reg) (s : State) :
    StaysInRow (aluInstr f rA rB) s (aluStep f rA rB s) := by
  refine staysInRow_of_two_ends (aluStep_cases f rA rB s).symm (fun _ => ?_) (fun h0 => ⟨rfl, rA, rB, ?_⟩)
  · refine ⟨.inl rfl, .inr ⟨isOpq_aluInstr f rA rB, rfl, _, rfl, rfl⟩, fun q hq => ?_, .inl rfl, rfl⟩
    rw [mayWrite_aluInstr] at hq
    exact reg_setReg_of_notMem hq (.head _) s _
  · obtain ⟨hA, rfl | rfl⟩ := eq_zero_of_aluDivZero h0
    · exact ⟨hA, .inl rfl⟩
    · exact ⟨hA, .inr rfl⟩

theorem moveStep_staysInRow (c : Cond) (rA rB : Reg) (v : Word) (s : State) :
    StaysInRow (condMove c rA rB v) s (moveStep c rA rB s) := by
  obtain ⟨hmode, h⟩ | ⟨-, ⟨-, h⟩ | ⟨-, h⟩⟩ := moveStep_cases c rA rB s
  · refine ⟨_, h, inRow_setStat ⟨rfl, .inr ⟨?_, .inl hmode⟩⟩⟩
    rw [opcode_condMove]
  · refine ⟨_, h, .inl rfl, .inl ⟨rfl, rfl⟩, fun q hq => ?_, .inl rfl, rfl⟩
    rw [mayWrite_condMove] at hq
    exact reg_setReg_of_notMem hq (.head _) s _
  · exact ⟨_, h, .inl rfl, .inl ⟨rfl, rfl⟩, fun _ _ => rfl, .inl rfl, rfl⟩

theorem jumpStep_staysInRow (c : Cond) (v : Word) (s : State) :
    StaysInRow (condJump c v) s (jumpStep c v s) := by
  refine staysInRow_of_two_ends (jumpStep_cases c v s).symm (fun _ => ?_) (fun hmode => ⟨rfl, .inl ⟨?_, hmode⟩⟩)
  · exact ⟨.inl rfl, .inl ⟨rfl, rfl⟩, fun _ _ => rfl, .inl rfl, rfl⟩
  · rw [opcode_condJump]

/-- The store below the stack pointer, for either instruction that makes it (R111, R12). -/
theorem pushQuad_staysInRow {i : Instr} {s : State} (curPc v nextPc : Word) (hwrite : mayWrite i = [4])
    (hstore : storeAddr i s = some (s.reg 4 - 8)) (haccess : accessAddr i s = some (s.reg 4 - 8)) :
    StaysInRow i s (pushQuad s (s.setPc curPc) v nextPc) := by
  have hregs (u : Word) : ∀ q, q ∉ mayWrite i → (s.setReg 4 u).reg q = s.reg q := by
    rw [hwrite]
    exact fun q hq => reg_setReg_of_notMem hq (.head _) s u
  obtain ⟨hfits, h⟩ | ⟨hfails, ⟨-, h⟩ | ⟨-, h⟩⟩ := pushQuad_cases s (s.setPc curPc) v nextPc rfl
  · exact ⟨_, h, .inl rfl, .inl ⟨rfl, rfl⟩, hregs _, .inr ⟨_, v, hstore, hfits, rfl⟩, rfl⟩
  · exact ⟨_, h, .inr ⟨rfl, Nat.lt_of_not_le hfails, haccess⟩, .inl ⟨rfl, rfl⟩, hregs _, .inl rfl, rfl⟩
  · exact ⟨_, h, inRow_setStat ⟨rfl, Nat.lt_of_not_le hfails, haccess⟩⟩

theorem popInto_inRow (fn : Nibble) (rA : Reg) (ign : Nibble) (v : Word) (s : State) :
    InRow (.popq fn rA ign) s ((s.popInto rA v).advance 2) := by
  obtain ⟨hzf, hsf, -, hmem, hstat, hparams⟩ := s.popInto_fields rA v
  refine ⟨.inl hstat, .inl ⟨hzf, hsf⟩, fun q hq => ?_, .inl hmem, hparams⟩
  have hq : q ≠ rA ∧ q ≠ 4 := by simpa [mayWrite] using hq
  simp [State.reg_popInto, hq]

theorem illegalByte_packByte (icode fn : Nibble) :
    IllegalByte (packByte icode fn) ↔ 0xC ≤ icode.toNat ∨ (icode = 0x6 ∨ icode = 0x7) ∧ 6 < fn.toNat := by
  rw [illegalByte_iff, hiNibble_packByte, loNibble_packByte]

/-! ## Every instruction -/

/-- Every instruction answers a next state within its row. -/
theorem exec_staysInRow (i : Instr) (s : State) : StaysInRow i s (exec i s) := by
  cases i using instr_by_family with
  | alu f rA rB => exact exec_aluInstr f rA rB s ▸ aluStep_staysInRow f rA rB s
  | move c rA rB v => exact exec_condMove c rA rB v s ▸ moveStep_staysInRow c rA rB v s
  | jump c v => exact exec_condJump c v s ▸ jumpStep_staysInRow c v s
  | halt fn => exact ⟨_, rfl, inRow_setStat rfl⟩
  | nop fn => exact ⟨_, rfl, .inl rfl, .inl ⟨rfl, rfl⟩, fun _ _ => rfl, .inl rfl, rfl⟩
  | moveOther fn rA rB v =>
    exact ⟨_, rfl, inRow_setStat ⟨rfl, .inr ⟨rfl, .inr fun hwf => of_decide_eq_true hwf⟩⟩⟩
  | irmovq fn ign rB v =>
    exact ⟨_, rfl, .inl rfl, .inl ⟨rfl, rfl⟩, fun q hq => reg_setReg_of_notMem hq (.head _) s v, .inl rfl, rfl⟩
  | rmmovq fn rA rB d =>
    exact staysInRow_of_two_ends (execRmmovq_cases fn rA rB d s)
      (fun hfits => ⟨.inl rfl, .inl ⟨rfl, rfl⟩, fun _ _ => rfl, .inr ⟨_, _, rfl, hfits, rfl⟩, rfl⟩)
      (fun hfails => ⟨rfl, Nat.lt_of_not_le hfails, rfl⟩)
  | mrmovq fn rA rB d =>
    exact staysInRow_of_two_ends (execMrmovq_cases fn rA rB d s)
      (fun _ => ⟨.inl rfl, .inl ⟨rfl, rfl⟩, fun q hq => reg_setReg_of_notMem hq (.head _) s _, .inl rfl, rfl⟩)
      (fun hfails => ⟨rfl, Nat.lt_of_not_le hfails, rfl⟩)
  | illegalOpq fn =>
    exact ⟨_, rfl, inRow_setStat ⟨rfl, rfl, fun hwf =>
      (illegalByte_packByte 0x6 fn).2 (.inr ⟨.inl rfl, of_decide_eq_true hwf⟩)⟩⟩
  | illegalJxx fn =>
    exact ⟨_, rfl, inRow_setStat ⟨rfl, rfl, fun hwf =>
      (illegalByte_packByte 0x7 fn).2 (.inr ⟨.inr rfl, of_decide_eq_true hwf⟩)⟩⟩
  | call fn v => exact pushQuad_staysInRow (s.pc + 9) (s.pc + 9) v rfl rfl rfl
  | ret fn =>
    exact staysInRow_of_two_ends (execRet_cases fn s)
      (fun _ => ⟨.inl rfl, .inl ⟨rfl, rfl⟩, fun q hq => reg_setReg_of_notMem hq (.head _) s _, .inl rfl, rfl⟩)
      (fun hfails => ⟨rfl, Nat.lt_of_not_le hfails, rfl⟩)
  | pushq fn rA ign => exact pushQuad_staysInRow s.pc (s.pushValue rA) (s.pc + 2) rfl rfl rfl
  | popq fn rA ign =>
    exact staysInRow_of_two_ends (execPopq_cases fn rA ign s) (fun _ => popInto_inRow fn rA ign _ s)
      (fun hfails => ⟨rfl, Nat.lt_of_not_le hfails, rfl⟩)
  | illegalFamily icode fn =>
    exact ⟨_, rfl, inRow_setStat ⟨rfl, rfl, fun hwf =>
      (illegalByte_packByte icode fn).2 (.inl (of_decide_eq_true hwf))⟩⟩

theorem inRow_of_exec {i : Instr} {s t : State} (h : exec i s = .next t) : InRow i s t := by
  obtain ⟨u, hu, hrow⟩ := exec_staysInRow i s
  obtain rfl := Host.Outcome.next.inj (hu.symm.trans h)
  exact hrow

/-- A step that answers a next state raised a decode-time error there, or ran an instruction within its row. -/
theorem step_next_cases {s t : State} (h : step s = .next t) : (∃ e, t = s.setStat e) ∨ ∃ i, InRow i s t := by
  obtain ⟨-, hstep⟩ | ⟨-, ⟨i, _, -, hstep⟩ | ⟨-, hstep⟩ | ⟨_, -, hstep⟩⟩ := step_cases s <;> rw [hstep] at h
  · cases h
  · exact .inr ⟨i, inRow_of_exec h⟩
  · cases h
    exact .inl ⟨_, rfl⟩
  · cases h
    exact .inl ⟨_, rfl⟩

/-! ## Flags -/

/-- R94: no result sets both flags. -/
theorem zeroFlag_and_signFlag (r : Word) : (zeroFlag r && signFlag r) = false := by
  rw [Bool.eq_false_iff]
  intro h
  obtain ⟨hz, hs⟩ := (Bool.and_eq_true_iff).1 h
  rw [zeroFlag_iff] at hz
  rw [signFlag_iff, hz] at hs
  omega

/-! ## The statements -/

/-- Settles O54: the registers of an instruction's row. -/
theorem writesOnlyItsRegisters : Obligations.WritesOnlyItsRegisters := fun _ _ _ h =>
  (inRow_of_exec h).regs

/-- Settles O56: memory is as before, or a quadword at the store address is written. -/
theorem storesOnlyItsQuadword : Obligations.StoresOnlyItsQuadword := by
  intro i s t h a houtside
  obtain hmem | ⟨w, v, haddr, -, hmem⟩ := (inRow_of_exec h).mem <;> rw [hmem]
  exact Memory.read_writeBytes_outside (houtside w haddr)

/-- Settles O23: the flags of an instruction's row, which no result sets both. -/
theorem onlyOpqWritesFlags : Obligations.OnlyOpqWritesFlags := by
  intro i s t h hchanged
  obtain ⟨hopq, hstat, r, hzf, hsf⟩ := (inRow_of_exec h).flags.resolve_left hchanged
  exact ⟨hopq, hstat, by rw [hzf, hsf, zeroFlag_and_signFlag]⟩

/-- Settles O57: neither the latch of a decode-time error nor an instruction's row holds a parameter. -/
theorem stepKeepsParams : Obligations.StepKeepsParams := by
  intro s t h
  obtain ⟨e, rfl⟩ | ⟨i, hrow⟩ := step_next_cases h
  · rfl
  · exact hrow.params

/-- Settles O58: the flags are as before or those of one result. -/
theorem flagsStayExclusive : Obligations.FlagsStayExclusive := by
  intro s t hs h
  obtain ⟨e, rfl⟩ | ⟨i, hrow⟩ := step_next_cases h
  · exact hs
  · obtain ⟨hzf, hsf⟩ | ⟨-, -, r, hzf, hsf⟩ := hrow.flags <;> rw [hzf, hsf]
    · exact hs
    · exact zeroFlag_and_signFlag r

/-- Settles O47: a step writes memory only by a quadword that passed the bounds check, and writes keep the canonical
form. -/
theorem stepKeepsInv : Obligations.StepKeepsInv := by
  rintro s t ⟨hwf, hcells, hsize⟩ h
  obtain ⟨e, rfl⟩ | ⟨i, hrow⟩ := step_next_cases h
  · exact ⟨hwf, hcells, hsize⟩
  · unfold State.Inv
    rw [hrow.params]
    obtain hmem | ⟨w, v, -, hfits, hmem⟩ := hrow.mem <;> rw [hmem]
    · exact ⟨hwf, hcells, hsize⟩
    · refine ⟨Memory.wf_writeBytes hwf _ _, fun c hc => ?_, hsize⟩
      obtain ⟨-, hlt⟩ | hold := Memory.mem_writeBytes hc
      · rw [length_quadBytes] at hlt
        omega
      · exact hcells c hold

end Sys2Proof.Claims
end

section
/-! What each value of the latch says of the step that set it (60_exceptions.md, R136). -/

namespace Sys2Proof.Claims

open Sys2Proof.Machine

/-- With the pc inside memory, and the whole instruction when the byte there is legal, the bytes fetched decode. -/
theorem exists_decode_fetchBytes {s : State} (hpc : s.pc.toNat < s.params.memSize)
    (hfits : ¬ IllegalByte (s.mem.read s.pc.toNat) →
      s.pc.toNat + tableLength ((s.mem.read s.pc.toNat).toNat / 16) ≤ s.params.memSize) :
    ∃ i rest, decode s.fetchBytes = .ok i rest := by
  obtain hillegal | hlegal := Classical.em (IllegalByte (s.mem.read s.pc.toNat))
  · obtain ⟨rest, hfetch⟩ := State.fetchBytes_of_lt hpc
    obtain ⟨i, hdec, -⟩ := decode_of_illegalByte hillegal rest
    exact ⟨i, rest, hfetch ▸ hdec⟩
  · have hfits := hfits hlegal
    rw [← length_layout_of_legal hlegal] at hfits
    exact ⟨_, decode_fetchBytes_of_fits hfits⟩

/-- The byte at the pc of a decoded instruction is its opcode byte. -/
theorem read_pc_of_decode {s : State} {i : Instr} {rest : List Byte} (hpc : s.pc.toNat < s.params.memSize)
    (h : decode s.fetchBytes = .ok i rest) : s.mem.read s.pc.toNat = packByte i.opcode.1 i.opcode.2 := by
  obtain ⟨-, henc⟩ := decode_eq_ok_iff.1 h
  obtain ⟨bs, hfetch⟩ := State.fetchBytes_of_lt hpc
  rw [hfetch, encode, List.cons_append] at henc
  exact (List.cons.inj henc).1.symm

theorem packByte_toNat_div (h l : Nibble) : (packByte h l).toNat / 16 = h.toNat := by
  rw [← hiNibble_toNat, hiNibble_packByte]

theorem packByte_toNat_mod (h l : Nibble) : (packByte h l).toNat % 16 = l.toNat := by
  rw [← loNibble_toNat, loNibble_packByte]

/-- Settles O52: a step that does not fail to decode runs the instruction at the pc, and the latch that one set is a
value its row allows. -/
theorem outcomeCauses : Obligations.OutcomeCauses := by
  intro s t hs hstep
  obtain hpc | hpc := Nat.lt_or_ge s.pc.toNat s.params.memSize
  · by_cases hshort : ¬ IllegalByte (s.mem.read s.pc.toNat) ∧
        s.params.memSize < s.pc.toNat + tableLength ((s.mem.read s.pc.toNat).toNat / 16)
    · obtain ⟨hlegal, hlen⟩ := hshort
      obtain ⟨-, htruncated⟩ := truncatedInstruction s _ hs hpc rfl hlegal hlen
      cases htruncated.symm.trans hstep
      exact ⟨rfl, rfl, hlen⟩
    · obtain ⟨i, rest, hdec⟩ := exists_decode_fetchBytes hpc fun hlegal =>
        Nat.not_lt.1 fun hlen => hshort ⟨hlegal, hlen⟩
      obtain ⟨hwf, -⟩ := decode_eq_ok_iff.1 hdec
      obtain hstat | hraises := (inRow_of_exec ((step_of_decode_ok hs hdec).symm.trans hstep)).stat
      · rw [hstat, hs]
        trivial
      rw [read_pc_of_decode hpc hdec, packByte_toNat_div, packByte_toNat_mod]
      generalize t.stat = e at hraises
      cases e with
      | aok => trivial
      | hlt => exact ⟨hpc, congrArg BitVec.toNat hraises⟩
      | errFetchOob | errTruncated => exact hraises.elim
      | errInvalid p b =>
        obtain ⟨hp, hb, hillegal⟩ := hraises
        exact ⟨hp, hb, hb ▸ hillegal hwf⟩
      | errMemOob a w =>
        obtain ⟨hw, hfails, haddr⟩ := hraises
        refine ⟨hw, hfails, i, rest, hdec, ?_⟩
        cases i with
        | rmmovq | mrmovq | call | pushq | ret | popq => exact (Option.some.inj haddr).symm
        | _ => cases haddr
      | errUnrecognized p =>
        obtain ⟨hp, ⟨hop, hmode⟩ | ⟨hop, hcode⟩⟩ := hraises
        · exact ⟨hp, .inl ⟨congrArg BitVec.toNat hop, hmode⟩⟩
        · exact ⟨hp, .inr ⟨congrArg BitVec.toNat hop, hcode.imp_right fun hgt => hgt hwf⟩⟩
      | errDivZero p =>
        obtain ⟨hp, rA, rB, hA, rfl | rfl⟩ := hraises
        · exact ⟨hp, rA, rB, rest, hA, .inl hdec⟩
        · exact ⟨hp, rA, rB, rest, hA, .inr hdec⟩
  · obtain ⟨-, -, houtside⟩ := fetchOutOfBounds s hs hpc
    cases houtside.symm.trans hstep
    exact ⟨rfl, hpc⟩

end Sys2Proof.Claims
end

section
/-! What an instruction does not read (R25, R32): run in two states that differ in nothing it reads, it answers two
states that differ in no more. One register outside its row, and under `fault` the flags, are such differences. -/

namespace Sys2Proof.Claims

open Sys2Proof.Machine

/-! ## Differences that an instruction does not read -/

/-- Related states agree on whatever `i` reads (the flags only where a condition is tested), and every write that `i`
can make, made to both, keeps them related. -/
structure Unread (i : Instr) (R : State → State → Prop) : Prop where
  pc {s u} : R s u → u.pc = s.pc
  mem {s u} : R s u → u.mem = s.mem
  params {s u} : R s u → u.params = s.params
  reg {s u} : R s u → ∀ {q}, q ∈ mayRead i → u.reg q = s.reg q
  flags {s u} : R s u → s.params.moveJumpExec = .y86 → SameFlags s u
  setReg {s u} : R s u → ∀ {q}, q ∈ mayWrite i → ∀ v, R (s.setReg q v) (u.setReg q v)
  setPc {s u} : R s u → ∀ v, R (s.setPc v) (u.setPc v)
  setMem {s u} : R s u → ∀ m, R (s.setMem m) (u.setMem m)
  setStat {s u} : R s u → ∀ e, R (s.setStat e) (u.setStat e)
  setFlags {s u} : R s u → ∀ z f, R (s.setFlags z f) (u.setFlags z f)

/-- Both results are next states, and they are related. -/
def AgreeUpTo (R : State → State → Prop) (r r' : Result) : Prop := ∃ t t', r = .next t ∧ r' = .next t' ∧ R t t'

/-- Two case distinctions on the same exclusive conditions end in the same case. -/
theorem same_end {P Q X Y X' Y' G : Prop} (hs : P ∧ X ∨ Q ∧ Y) (hu : P ∧ X' ∨ Q ∧ Y') (hexcl : P → ¬ Q)
    (hP : P → X → X' → G) (hQ : Q → Y → Y' → G) : G := by
  obtain ⟨hp, hx⟩ | ⟨hq, hy⟩ := hs <;> obtain ⟨hp', hx'⟩ | ⟨hq', hy'⟩ := hu
  · exact hP hp hx hx'
  · exact absurd hq' (hexcl hp)
  · exact absurd hq (hexcl hp')
  · exact hQ hq hy hy'

section
variable {i : Instr} {R : State → State → Prop} (h : Unread i R) {s u : State} (hR : R s u)
include h hR

theorem Unread.valP (n : Nat) : u.valP n = s.valP n := by
  rw [State.valP, State.valP, h.pc hR]

theorem Unread.advance (n : Nat) : R (s.advance n) (u.advance n) := by
  rw [State.advance, State.advance, h.valP hR]
  exact h.setPc hR _

/-! ## The shared meanings -/

theorem aluStep_agree (f : AluFun) {rA rB : Reg} (hA : rA ∈ mayRead i) (hB : rB ∈ mayRead i)
    (hW : rB ∈ mayWrite i) : AgreeUpTo R (aluStep f rA rB s) (aluStep f rA rB u) := by
  have hu := aluStep_cases f rA rB u
  rw [h.reg hR hA, h.reg hR hB, h.pc hR] at hu
  exact same_end (aluStep_cases f rA rB s) hu (fun hz => by simp [hz])
    (fun _ hs hu => ⟨_, _, hs, hu, h.setStat hR _⟩)
    (fun _ hs hu => ⟨_, _, hs, hu, h.advance (h.setFlags (h.setReg hR hW _) _ _) 2⟩)

theorem moveStep_agree (c : Cond) {rA rB : Reg} (hA : rA ∈ mayRead i) (hW : rB ∈ mayWrite i) :
    AgreeUpTo R (moveStep c rA rB s) (moveStep c rA rB u) := by
  have hu := moveStep_cases c rA rB u
  rw [h.reg hR hA, h.pc hR, h.params hR] at hu
  refine same_end (moveStep_cases c rA rB s) hu (fun hmode => by simp [hmode])
    (fun _ hs hu => ⟨_, _, hs, hu, h.setStat hR _⟩) (fun hy86 hs hu => ?_)
  obtain ⟨hzf, hsf⟩ := h.flags hR hy86
  rw [hzf, hsf] at hu
  exact same_end hs hu (fun hc => by simp [hc])
    (fun _ hs hu => ⟨_, _, hs, hu, h.advance (h.setReg hR hW _) 10⟩)
    (fun _ hs hu => ⟨_, _, hs, hu, h.advance hR 10⟩)

theorem jumpStep_agree (c : Cond) (v : Word) : AgreeUpTo R (jumpStep c v s) (jumpStep c v u) := by
  have hu := jumpStep_cases c v u
  rw [h.pc hR, h.params hR, h.valP hR] at hu
  refine same_end (jumpStep_cases c v s) hu (fun hmode => by simp [hmode])
    (fun _ hs hu => ⟨_, _, hs, hu, h.setStat hR _⟩) (fun hy86 hs hu => ⟨_, _, hs, hu, ?_⟩)
  obtain ⟨hzf, hsf⟩ := h.flags hR hy86
  rw [hzf, hsf]
  exact h.setPc hR _

/-- The store of call and push, from two states in which the instruction has written at most the pc. -/
theorem pushQuad_agree (h4 : 4 ∈ mayRead i) (hW : 4 ∈ mayWrite i) {curPc curPc' v v' nextPc nextPc' : Word}
    (hcur : curPc' = curPc) (hv : v' = v) (hnext : nextPc' = nextPc) :
    AgreeUpTo R (pushQuad s (s.setPc curPc) v nextPc) (pushQuad u (u.setPc curPc') v' nextPc') := by
  subst hcur hv hnext
  have hslot : u.pushSlot = s.pushSlot := congrArg (· - 8) (h.reg hR h4)
  have hu := pushQuad_cases u (u.setPc curPc') v' nextPc' rfl
  rw [hslot, h.params hR, State.setPc_mem, h.mem hR] at hu
  have hdec : R ((s.setPc curPc').setReg spIndex s.pushSlot) ((u.setPc curPc').setReg spIndex s.pushSlot) :=
    h.setReg (h.setPc hR curPc') hW _
  refine same_end (pushQuad_cases s (s.setPc curPc') v' nextPc' rfl) hu not_not_intro
    (fun _ hs hu => ⟨_, _, hs, hu, h.setPc (h.setMem hdec _) _⟩) (fun _ hs hu => ?_)
  exact same_end hs hu (fun hmode => by simp [hmode])
    (fun _ hs hu => ⟨_, _, hs, hu, h.setStat hdec _⟩)
    (fun _ hs hu => ⟨_, _, hs, hu, h.setStat hR _⟩)

theorem rmmovq_agree (fn : Nibble) {rA rB : Reg} (d : Word) (hA : rA ∈ mayRead i) (hB : rB ∈ mayRead i) :
    AgreeUpTo R (execRmmovq fn rA rB d s) (execRmmovq fn rA rB d u) := by
  have haddr : u.effAddr rB d = s.effAddr rB d := congrArg (· + d) (h.reg hR hB)
  have hu := execRmmovq_cases fn rA rB d u
  rw [haddr, h.params hR, h.mem hR, h.reg hR hA] at hu
  exact same_end (execRmmovq_cases fn rA rB d s) hu not_not_intro
    (fun _ hs hu => ⟨_, _, hs, hu, h.advance (h.setMem hR _) 10⟩)
    (fun _ hs hu => ⟨_, _, hs, hu, h.setStat hR _⟩)

theorem mrmovq_agree (fn : Nibble) {rA rB : Reg} (d : Word) (hB : rB ∈ mayRead i) (hW : rA ∈ mayWrite i) :
    AgreeUpTo R (execMrmovq fn rA rB d s) (execMrmovq fn rA rB d u) := by
  have haddr : u.effAddr rB d = s.effAddr rB d := congrArg (· + d) (h.reg hR hB)
  have hu := execMrmovq_cases fn rA rB d u
  rw [haddr, h.params hR, h.mem hR] at hu
  exact same_end (execMrmovq_cases fn rA rB d s) hu not_not_intro
    (fun _ hs hu => ⟨_, _, hs, hu, h.advance (h.setReg hR hW _) 10⟩)
    (fun _ hs hu => ⟨_, _, hs, hu, h.setStat hR _⟩)

theorem ret_agree (fn : Nibble) (h4 : 4 ∈ mayRead i) (hW : 4 ∈ mayWrite i) :
    AgreeUpTo R (execRet fn s) (execRet fn u) := by
  have hslot : u.popSlot = s.popSlot := h.reg hR h4
  have hu := execRet_cases fn u
  rw [hslot, h.params hR, h.mem hR] at hu
  exact same_end (execRet_cases fn s) hu not_not_intro
    (fun _ hs hu => ⟨_, _, hs, hu, h.setPc (h.setReg hR hW _) _⟩)
    (fun _ hs hu => ⟨_, _, hs, hu, h.setStat hR _⟩)

theorem popInto_agree {rA : Reg} (h4 : 4 ∈ mayRead i) (hW : 4 ∈ mayWrite i) (hWA : rA ∈ mayWrite i) (v : Word) :
    R (s.popInto rA v) (u.popInto rA v) := by
  have hslot : u.popSlot = s.popSlot := h.reg hR h4
  unfold State.popInto
  rw [hslot, h.params hR]
  split
  · split <;> exact h.setReg hR hW _
  · exact h.setReg (h.setReg hR hWA v) hW _

theorem popq_agree (fn : Nibble) {rA : Reg} (ign : Nibble) (h4 : 4 ∈ mayRead i) (hW : 4 ∈ mayWrite i)
    (hWA : rA ∈ mayWrite i) : AgreeUpTo R (execPopq fn rA ign s) (execPopq fn rA ign u) := by
  have hslot : u.popSlot = s.popSlot := h.reg hR h4
  have hu := execPopq_cases fn rA ign u
  rw [hslot, h.params hR, h.mem hR] at hu
  exact same_end (execPopq_cases fn rA ign s) hu not_not_intro
    (fun _ hs hu => ⟨_, _, hs, hu, h.advance (popInto_agree h hR h4 hW hWA _) 2⟩)
    (fun _ hs hu => ⟨_, _, hs, hu, h.setStat hR _⟩)

theorem pushValue_agree {rA : Reg} (hA : rA ∈ mayRead i) (h4 : 4 ∈ mayRead i) : u.pushValue rA = s.pushValue rA := by
  rw [pushValue_eq, pushValue_eq, h.reg hR hA, h.reg hR h4, h.params hR]

end

/-! ## Every instruction -/

/-- An instruction run in two states that differ in nothing it reads answers two such states. -/
theorem exec_agree {i : Instr} {R : State → State → Prop} (h : Unread i R) {s u : State} (hR : R s u) :
    AgreeUpTo R (exec i s) (exec i u) := by
  have hraise (e : State → Stat) (he : e u = e s) : AgreeUpTo R (s.raise (e s)) (u.raise (e u)) :=
    ⟨_, _, rfl, rfl, he ▸ h.setStat hR _⟩
  cases i using instr_by_family with
  | alu f rA rB =>
    rw [exec_aluInstr, exec_aluInstr]
    refine aluStep_agree h hR f ?_ ?_ ?_ <;> cases f <;> simp [mayRead, mayWrite, aluInstr]
  | move c rA rB v =>
    rw [exec_condMove, exec_condMove]
    refine moveStep_agree h hR c ?_ ?_ <;> cases c <;> exact .head _
  | jump c v =>
    rw [exec_condJump, exec_condJump]
    exact jumpStep_agree h hR c v
  | halt fn => exact hraise (fun _ => .hlt) rfl
  | nop fn => exact ⟨_, _, rfl, rfl, h.advance hR 1⟩
  | moveOther fn rA rB v => exact hraise (fun s => .errUnrecognized s.pc) (by rw [h.pc hR])
  | irmovq fn ign rB v => exact ⟨_, _, rfl, rfl, h.advance (h.setReg hR (.head _) v) 10⟩
  | rmmovq fn rA rB d => exact rmmovq_agree h hR fn d (.head _) (.tail _ (.head _))
  | mrmovq fn rA rB d => exact mrmovq_agree h hR fn d (.head _) (.head _)
  | illegalOpq fn => exact hraise (fun s => .errInvalid s.pc _) (by rw [h.pc hR])
  | illegalJxx fn => exact hraise (fun s => .errInvalid s.pc _) (by rw [h.pc hR])
  | call fn v => exact pushQuad_agree h hR (.head _) (.head _) (h.valP hR 9) (h.valP hR 9) rfl
  | ret fn => exact ret_agree h hR fn (.head _) (.head _)
  | pushq fn rA ign =>
    have h4 : 4 ∈ mayRead (.pushq fn rA ign) := .tail _ (.head _)
    exact pushQuad_agree h hR h4 (.head _) (h.pc hR) (pushValue_agree h hR (.head _) h4) (h.valP hR 2)
  | popq fn rA ign => exact popq_agree h hR fn ign (.head _) (.tail _ (.head _)) (.head _)
  | illegalFamily icode fn => exact hraise (fun s => .errInvalid s.pc _) (by rw [h.pc hR])

/-! ## One register outside the row -/

theorem setReg_comm {q r : Reg} (hne : q ≠ r) (s : State) (v w : Word) :
    (s.setReg q v).setReg r w = (s.setReg r w).setReg q v := by
  have hval : q.val ≠ r.val := fun heq => hne (Fin.ext heq)
  simp only [State.setReg]
  rw [Vector.set_comm _ _ hval]

/-- Another value in a register that the instruction neither reads nor writes. -/
theorem unread_setReg {i : Instr} {q : Reg} (v : Word) (hread : q ∉ mayRead i) (hwrite : q ∉ mayWrite i) :
    Unread i fun s u => u = s.setReg q v where
  pc := by rintro s _ rfl; rfl
  mem := by rintro s _ rfl; rfl
  params := by rintro s _ rfl; rfl
  reg := by
    rintro s _ rfl r hr
    rw [State.reg_setReg, if_neg]
    rintro rfl
    exact hread hr
  flags := by rintro s _ rfl -; exact ⟨rfl, rfl⟩
  setReg := by
    rintro s _ rfl r hr w
    refine setReg_comm ?_ s v w
    rintro rfl
    exact hwrite hr
  setPc := by rintro s _ rfl _; rfl
  setMem := by rintro s _ rfl _; rfl
  setStat := by rintro s _ rfl _; rfl
  setFlags := by rintro s _ rfl _ _; rfl

/-! ## The flags under `fault` -/

/-- The states differ in the flags alone, and `MOVE_JUMP_EXEC` is `fault`. -/
def SameButFlags (s u : State) : Prop := s.params.moveJumpExec = .fault ∧ u = s.setFlags u.zf u.sf

/-- Under `fault` no condition is tested, so the flags are unread by every instruction. -/
theorem unread_flags (i : Instr) : Unread i SameButFlags where
  pc := by rintro s u ⟨-, hu⟩; rw [hu]; rfl
  mem := by rintro s u ⟨-, hu⟩; rw [hu]; rfl
  params := by rintro s u ⟨-, hu⟩; rw [hu]; rfl
  reg := by rintro s u ⟨-, hu⟩ q -; rw [hu]; rfl
  flags := by rintro s u ⟨hfault, -⟩ hy86; exact absurd (hfault.symm.trans hy86) nofun
  setReg := by rintro s u ⟨hfault, hu⟩ q - v; exact ⟨hfault, congrArg (·.setReg q v) hu⟩
  setPc := by rintro s u ⟨hfault, hu⟩ v; exact ⟨hfault, congrArg (·.setPc v) hu⟩
  setMem := by rintro s u ⟨hfault, hu⟩ m; exact ⟨hfault, congrArg (·.setMem m) hu⟩
  setStat := by rintro s u ⟨hfault, hu⟩ e; exact ⟨hfault, congrArg (·.setStat e) hu⟩
  setFlags := by rintro s u ⟨hfault, hu⟩ z f; exact ⟨hfault, congrArg (·.setFlags z f) hu⟩

/-! ## The statements -/

/-- Settles O55: the register is a difference that the instruction does not read. -/
theorem readsOnlyItsRegisters : Obligations.ReadsOnlyItsRegisters := by
  intro i s t q v hread hwrite hexec
  obtain ⟨t', u, ht, hu, rfl⟩ := exec_agree (unread_setReg v hread hwrite) (s := s) rfl
  obtain rfl := Host.Outcome.next.inj (ht.symm.trans hexec)
  exact hu

/-- Settles O41: fetch and decode do not look at the flags, and no instruction reads them under `fault`. -/
theorem flagsUnreadUnderFault : Obligations.FlagsUnreadUnderFault := by
  intro s t z f hfault hstep
  have hflags : SameButFlags s (s.setFlags z f) := ⟨hfault, rfl⟩
  obtain ⟨-, hstop⟩ | ⟨hs, ⟨i, rest, hdec, hrun⟩ | ⟨hdec, hraise⟩ | ⟨n, hdec, hraise⟩⟩ := step_cases s
  · cases hstop.symm.trans hstep
  · obtain ⟨t', u, ht, hu, -, heq⟩ := exec_agree (unread_flags i) hflags
    obtain rfl := Host.Outcome.next.inj (ht.symm.trans (hrun.symm.trans hstep))
    have hrun' : step (s.setFlags z f) = exec i (s.setFlags z f) := step_of_decode_ok hs hdec
    exact ⟨u, hrun'.trans hu, heq⟩
  · cases hraise.symm.trans hstep
    exact ⟨_, step_of_decode_noByte hs hdec, rfl⟩
  · cases hraise.symm.trans hstep
    exact ⟨_, step_of_decode_truncated hs hdec, rfl⟩

end Sys2Proof.Claims
end

section
/-! What two instructions do one after the other: quotient and remainder (R103), a store and a load (R49, R110), a call
and a return (R116), a push and a pop (R117), and a store and the fetch of what it stored (R58, R155). -/

namespace Sys2Proof.Claims

open Sys2Proof.Machine

/-! ## Success told by the latch -/

/-- Of one completed and one raised end, a next state with the latch at `AOK` is the completed one. -/
theorem eq_completed_of_aok {s t u : State} {r : Result} {e : Stat} {P Q : Prop}
    (h : P ∧ r = .next t ∨ Q ∧ r = .next (s.setStat e)) (he : e ≠ .aok) (hr : r = .next u) (hu : u.stat = .aok) :
    u = t := by
  obtain ⟨-, ht⟩ | ⟨-, hraised⟩ := h
  · exact Host.Outcome.next.inj (hr.symm.trans ht)
  · obtain rfl := Host.Outcome.next.inj (hr.symm.trans hraised)
    exact absurd hu he

/-- The store that call and push share, when it succeeds: the stack pointer points to the value stored. -/
theorem pushQuad_of_aok {s t : State} {curPc v nextPc : Word}
    (h : pushQuad s (s.setPc curPc) v nextPc = .next t) (ht : t.stat = .aok) :
    t.reg 4 = s.reg 4 - 8 ∧ t.mem.quad (t.reg 4).toNat = v := by
  obtain ⟨-, hpush⟩ | ⟨-, ⟨-, hpush⟩ | ⟨-, hpush⟩⟩ := pushQuad_cases s (s.setPc curPc) v nextPc rfl <;>
    have hend := Host.Outcome.next.inj (h.symm.trans hpush)
  · have hsp : t.reg 4 = s.reg 4 - 8 := by
      rw [hend]
      exact reg_setReg_same _ 4 _
    refine ⟨hsp, ?_⟩
    rw [hsp, hend]
    exact Memory.quad_writeBytes s.mem _ v
  all_goals
    rw [hend] at ht
    cases ht

/-! ## The statements -/

/-- Settles O22: division of numbers with remainder, on the two instructions' results. -/
theorem quotientAndRemainder : Obligations.QuotientAndRemainder := by
  intro rA rB s t u hA hdiv hmod
  obtain ⟨-, hdivq⟩ := divqRule rA rB
  obtain ⟨-, hmodq⟩ := modqRule rA rB
  obtain ⟨t', ht, hquot, -⟩ := (hdivq s).1 hA
  obtain ⟨u', hu, hrem, -⟩ := (hmodq s).1 hA
  obtain rfl := Host.Outcome.next.inj (ht.symm.trans hdiv)
  obtain rfl := Host.Outcome.next.inj (hu.symm.trans hmod)
  rw [hquot, hrem]
  have hpos : 0 < (s.reg rA).toNat := Nat.pos_of_ne_zero fun h0 => hA (BitVec.eq_of_toNat_eq h0)
  exact ⟨(Nat.div_add_mod _ _).symm, Nat.mod_lt _ hpos⟩

/-- Settles O44: the quadword written is read back whole, and byte by byte from the same eight addresses. -/
theorem writeThenRead : Obligations.WriteThenRead := by
  intro s t a v h
  obtain ⟨hfits, hw⟩ | ⟨-, hw⟩ := s.writeQuad_cases a v
  · obtain rfl := Option.some.inj (hw.symm.trans h)
    constructor
    · obtain ⟨-, hr⟩ | ⟨hn, -⟩ := (s.setMem (s.mem.writeBytes a.toNat (quadBytes v))).readQuad_cases a
      · rw [hr, State.setMem_mem, Memory.quad_writeBytes]
      · exact absurd hfits hn
    · intro i hi b hb
      obtain ⟨hstored, -⟩ := storesQuad_writeBytes s a.toNat v
      obtain ⟨hread, -⟩ := readPrimitives (s.setMem (s.mem.writeBytes a.toNat (quadBytes v))) b
      rw [hread (by rw [State.setMem_params]; omega), hb, hstored i hi]
  · cases hw.symm.trans h

/-- Settles O45: the check of R43 is on exact integers, so an end past 2^64 is past `MEM_SIZE`. -/
theorem noWrapInBoundsCheck : Obligations.NoWrapInBoundsCheck := by
  intro s a v hsize hend
  have hfails : ¬ QuadFits s a := by
    unfold QuadFits
    have : s.params.memSize ≤ 2 ^ 64 := hsize
    omega
  obtain ⟨-, -, -, hread⟩ := readPrimitives s a
  exact ⟨hread hfails, (writeQuadPrimitive s a v).2 hfails⟩

/-- Settles O30: the load takes the quadword at the store's address, which is still the one stored. -/
theorem storeThenLoad : Obligations.StoreThenLoad := by
  intro f g rA rB rC rD d e s t u w _ ht _ hw hstore hkept haddr hload
  obtain rfl := eq_completed_of_aok (execRmmovq_cases f rA rB d s) nofun hstore ht
  obtain rfl := eq_completed_of_aok (execMrmovq_cases g rC rD e u) nofun hload hw
  have haddr : u.effAddr rD e = s.reg rB + d := haddr
  rw [reg_setReg_advance, haddr, Memory.quad_congr hkept]
  exact Memory.quad_writeBytes s.mem _ _

/-- Settles O35: the stack pointer and the quadword there are as the call left them. -/
theorem callThenRet : Obligations.CallThenRet := by
  intro f g target s t u w _ ht _ hw hcall hsp hkept hret
  obtain ⟨hdec, hquad⟩ := pushQuad_of_aok (curPc := s.pc + 9) hcall ht
  obtain rfl := eq_completed_of_aok (execRet_cases g u) nofun hret hw
  have hslot : u.popSlot = t.reg 4 := hsp
  rw [hslot]
  refine ⟨(Memory.quad_congr hkept).trans hquad, ?_⟩
  rw [State.reg_setPc, spIndex, reg_setReg_same, hdec, BitVec.sub_add_cancel]

/-- Settles O36: the pop reads the quadword the push stored, and neither register is the stack pointer. -/
theorem pushThenPop : Obligations.PushThenPop := by
  intro f g m n rX rY s t u _ ht hu hX hY hpush hpop
  obtain ⟨hdec, hquad⟩ := pushQuad_of_aok (curPc := s.pc) hpush ht
  obtain rfl := eq_completed_of_aok (execPopq_cases g rY n t) nofun hpop hu
  have hslot : t.popSlot = t.reg 4 := rfl
  rw [hslot, hquad, pushValue_eq, if_neg hX]
  simp [State.reg_popInto, hY, hdec]

theorem getElem_leBytes (v : Word) {k : Nat} (hk : k < (leBytes v).length) : (leBytes v)[k] = byteOf v k := by
  simp only [leBytes_eq_quadBytes]
  exact getElem_quadBytes v _

/-- Settles O46: the store leaves the instruction's bytes at the pc it advances to. -/
theorem fetchSeesTheStore : Obligations.FetchSeesTheStore := by
  intro fn rA rB d i rest s hs hstore haddr hfits hwf hbytes
  obtain ⟨-, hrule⟩ := rmmovqRule fn rA rB d
  obtain ⟨t, hexec, ⟨hstored, -⟩, -, -, hpc, hstat, hparams⟩ := (hrule s).1 (haddr ▸ hfits)
  refine ⟨t, (step_of_instrAtPc hs rfl hstore).trans hexec, step_of_instrAtPc (hstat.trans hs) hwf ?_⟩
  have hlen : (leBytes (s.reg rA)).length = i.length + rest.length := by
    rw [hbytes, List.length_append, length_encode]
  have hlen : 8 = i.length + rest.length := hlen
  have hfits : (s.pc + 10).toNat + 8 ≤ s.params.memSize := hfits
  refine ⟨by rw [hpc, hparams]; omega, fun k hk => ?_⟩
  rw [length_encode] at hk
  rw [hpc, ← haddr, hstored k (by omega), ← getElem_leBytes _ (by rw [hbytes]; simp; omega)]
  simp only [hbytes]
  rw [List.getElem_append_left]

end Sys2Proof.Claims
end

section
/-! The illegal codes and the accepted ones that act alike (30_encoding.md sections 2, 4 and 6), the states a launch and
a reset leave (70_reset_and_hazards.md section 1), and the outcomes' codes (60_exceptions.md section 1). -/

namespace Sys2Proof.Claims

open Sys2Proof.Machine

/-! ## Decoding -/

/-- Settles O1: the decoder evaluates on each of the sixteen words. -/
theorem decodeOfSampleWords : Obligations.DecodeOfSampleWords := by
  unfold Obligations.DecodeOfSampleWords
  decide

/-- Settles O14: the meanings do not mention these fields. -/
theorem aliasesActAlike : Obligations.AliasesActAlike := by
  intro f g n m rA rB v w s
  exact ⟨rfl, rfl, rfl, rfl, rfl, rfl, rfl, rfl, rfl, rfl, rfl, rfl, rfl, rfl, rfl, rfl, rfl⟩

/-- The layout of an opcode byte that is illegal ends decoding there (R72). -/
theorem decode_opcodeByte_of_illegal {icode fn : Nibble} {i : Instr} (h : layout icode fn = .illegal i)
    (rest : List Byte) : decode (opcodeByte icode.toNat fn.toNat :: rest) = .ok i rest :=
  decode_of_illegal ((layout_opcodeByte icode fn).trans h) rest

/-- Settles O29: the opcode map ends at family 0xB, and the meaning raises. -/
theorem illegalFamilyRaises : Obligations.IllegalFamilyRaises := by
  refine fun icode fn => ⟨fun h => decode_opcodeByte_of_illegal (layout_of_illegalFamily h fn), fun s => ?_⟩
  rw [exec, execIllegalFamily, packByte_eq_ofNat]
  rfl

/-- Settles O40: both families' codes end at 6, and the meanings raise. -/
theorem illegalCodesRaise : Obligations.IllegalCodesRaise := by
  refine fun fn => ⟨fun h rest => ⟨decode_opcodeByte_of_illegal (icode := 0x6) (opqLayout_of_gt h) rest,
    decode_opcodeByte_of_illegal (icode := 0x7) (jumpLayout_of_gt h) rest⟩, fun s => ⟨?_, ?_⟩⟩
  · rw [exec, execIllegalOpq, packByte_eq_ofNat]
    rfl
  · rw [exec, execIllegalJxx, packByte_eq_ofNat]
    rfl

/-- Settles O38: the family's layout keeps a code above 6, and the meaning does not look at the mode. -/
theorem registerMoveOtherFaults : Obligations.RegisterMoveOtherFaults := fun fn rA rB v =>
  ⟨fun h => decode_of_f10 ((layout_opcodeByte 0x2 fn).trans (moveLayout_of_gt h)) (regNibble rA) (regNibble rB) v,
    fun _ => rfl⟩

/-! ## Launch and reset -/

/-- Settles O49: with an image as long as memory, each byte of it is written at its own address and nothing else is. -/
theorem launchRule : Obligations.LaunchRule := by
  intro p image regs zf sf hp hlen
  have himage : image.take p.memSize = image := List.take_of_length_le hlen.le
  refine ⟨_, rfl, rfl, rfl, rfl, rfl, rfl, rfl, fun a ha => ?_, ?_, fun c hc => ?_, hp⟩
  · have hread := Memory.read_writeBytes_inside (m := []) (a := 0) ha
    rw [Nat.zero_add] at hread
    rw [State.launch, himage]
    exact hread
  · exact Memory.wf_writeBytes ⟨.nil, nofun⟩ 0 _
  · obtain ⟨-, hlt⟩ | hnil := Memory.mem_writeBytes hc
    · rw [himage, Nat.zero_add, hlen] at hlt
      exact hlt
    · cases hnil

/-- Settles O48: an empty list is canonical and has no cell, and `MEM_SIZE` is 2^64. -/
theorem resetHasInv : Obligations.ResetHasInv :=
  ⟨⟨.nil, nofun⟩, nofun, Nat.le_refl _⟩

/-- Settles O50: the fields of the reset state. -/
theorem resetValues : Obligations.ResetValues :=
  ⟨rfl, rfl, fun r => Vector.getElem_replicate r.isLt, rfl, rfl, fun _ => rfl, rfl⟩

/-! ## Outcomes -/

/-- Settles O53: the two tables, outcome by outcome. -/
theorem outcomeCodes : Obligations.OutcomeCodes := fun _ _ _ => rfl

end Sys2Proof.Claims
end
